-- ==== Sys2Proof/Word.lean ====
section
/-! DEFINITION. The widths the CHIP-8 core works on (spec/00_scope.md R6, R7, R9) and the plainest arithmetic on them. -/

namespace Sys2Proof

/-- An 8-bit value: a general register, a timer, a byte of memory (R6). -/
abbrev Byte := BitVec 8

/-- A 16-bit value: I, PC, a return address, an opcode (R6, R48). -/
abbrev Word := BitVec 16

/-- A 12-bit address field `nnn` (R49). -/
abbrev Addr12 := BitVec 12

/-- A 4-bit field of an opcode (R7). -/
abbrev Nibble := BitVec 4

/-- The number of a general register V0..VF (R13), and the number of a key (R26). -/
abbrev RegNum := Fin 16

/-- VF, register 15, which doubles as the flag register (R15). -/
def vf : RegNum := 15

/-- A flag value: 1 or 0 (R15). -/
def flagByte (b : Bool) : Byte := if b then 1 else 0

end Sys2Proof
end

