-- ==== Sys2Proof/Config.lean ====
section
/-! DEFINITION. The implementation parameters of spec/00_scope.md R6: the fixed sizes, the type of each switch,
and the values the spec leaves open, which are constants without a body. The value each switch takes on this
hardware stands in Sys2Proof/Machine/Params.lean. -/

namespace Sys2Proof

/-- `MEM_SIZE`: addresses 0x000..0xFFF (R6, R32). -/
def Config.memSize : Nat := 4096

/-- `STACK_DEPTH` (R6, R19). -/
def Config.stackDepth : Nat := 16

/-- `FB_W` (R6, R25). -/
def Config.fbWidth : Nat := 64

/-- `FB_H` (R6, R25). -/
def Config.fbHeight : Nat := 32

/-- `PROG_START`: where a ROM is loaded and execution starts (R6, R40). -/
def Config.progStart : Nat := 0x200

/-- `MAX_ROM`, the longest ROM `load` accepts (R6, R122). -/
def Config.maxRom : Nat := Config.memSize - Config.progStart

/-- `SYS_POLICY`: what 0nnn does (R61, D1). -/
inductive SysPolicy where
  /-- it raises `UnknownInstruction` -/
  | fault
  /-- it has no effect -/
  | nop
deriving DecidableEq, Repr

/-- `SHIFT_SOURCE`: which register 8xy6 and 8xyE shift (R80, R82, D4). -/
inductive ShiftSource where
  /-- Vx in place -/
  | vx
  /-- Vy -/
  | vy
deriving DecidableEq, Repr

/-- `JUMP_OFFSET_REG`: which register Bnnn adds (R65, D7). -/
inductive JumpOffsetReg where
  /-- V0 -/
  | v0
  /-- Vx, x the high nibble of nnn -/
  | vx
deriving DecidableEq, Repr

/-- `LOADSTORE_I_MODE`: what Fx55 and Fx65 do to I (R88, R89, D9). -/
inductive LoadStoreIMode where
  /-- I keeps its value -/
  | unchanged
  /-- I becomes I + x + 1 -/
  | increment
deriving DecidableEq, Repr

/-- `KEY_INDEX_POLICY`: what Ex9E and ExA1 do when Vx > 0xF (R98, R99, D13). -/
inductive KeyIndexPolicy where
  /-- they raise `KeyIndexOutOfRange` -/
  | fault
  /-- they use the low nibble of Vx -/
  | lowNibble
deriving DecidableEq, Repr

/-- `DRAW_EDGE`: what Dxyn does with a pixel beyond the screen's edge (R91, D16). -/
inductive DrawEdge where
  /-- it wraps modulo 64 and 32 -/
  | wrap
  /-- it is not drawn -/
  | clip
deriving DecidableEq, Repr

/-- `LOAD_RESIDUE`: what `load` does to the bytes above the ROM (R124, D20). -/
inductive LoadResidue where
  /-- they keep their values -/
  | preserve
  /-- they become 0 -/
  | zero
deriving DecidableEq, Repr, Inhabited

/-- FREE VALUE. The n-th byte the random source gives (R27, M13: any value in 0..255, under no law; log 3). -/
opaque Config.drawU8 : Nat → Byte

/-- FREE VALUE. The n-th choice among the keys pressed at an Fx0A (R100, M14: any pressed key; log 4). -/
opaque Config.drawKey : Nat → Nat

/-- OPEN PARAMETER `LOAD_CLEARS_I` (R6, R124, D20; log 5). -/
opaque Config.loadClearsI : Bool

/-- OPEN PARAMETER `LOAD_RESIDUE` (R6, R124, D20; log 6). -/
opaque Config.loadResidue : LoadResidue

end Sys2Proof
end

