-- ==== Sys2Proof/Machine/Params.lean ====
section
/-! DEFINITION. The value this hardware takes for each switch of spec/00_scope.md R6, and its built-in font
(spec/20_memory.md R42). Every operation that a switch governs takes the switch as an argument; the meanings pass
these values. -/

namespace Sys2Proof.Machine

/-- `SYS_POLICY` = `fault` (R6, D1; log 11). -/
def Params.sysPolicy : SysPolicy := .fault

/-- `STRICT_LOW_NIBBLE` = `true` (R6, D2, C2; log 12). -/
def Params.strictLowNibble : Bool := true

/-- `LOGIC_RESETS_VF` = `false` (R6, D3; log 13). -/
def Params.logicResetsVf : Bool := false

/-- `SHIFT_SOURCE` = `VX` (R6, D4; log 14). -/
def Params.shiftSource : ShiftSource := .vx

/-- `JUMP_OFFSET_REG` = `V0` (R6, D7; log 15). -/
def Params.jumpOffsetReg : JumpOffsetReg := .v0

/-- `LOADSTORE_I_MODE` = `unchanged` (R6, D9; log 16). -/
def Params.loadStoreIMode : LoadStoreIMode := .unchanged

/-- `KEY_INDEX_POLICY` = `fault` (R6, D13; log 17). -/
def Params.keyIndexPolicy : KeyIndexPolicy := .fault

/-- `DRAW_EDGE` = `wrap` (R6, D16; log 18). -/
def Params.drawEdge : DrawEdge := .wrap

/-- `FONT_BASE` = 0x050 (R6, D17, C8; log 9). -/
def Params.fontBase : Nat := 0x050

/-- `GLYPH_BYTES` = 5 (R6, D17; log 9). -/
def Params.glyphBytes : Nat := 5

/-- The 16 glyphs of R42's table, glyph 0 first (general knowledge, S1; log 9). -/
def Params.glyphs : List (List Byte) :=
  [[0xF0, 0x90, 0x90, 0x90, 0xF0], [0x20, 0x60, 0x20, 0x20, 0x70],
   [0xF0, 0x10, 0xF0, 0x80, 0xF0], [0xF0, 0x10, 0xF0, 0x10, 0xF0],
   [0x90, 0x90, 0xF0, 0x10, 0x10], [0xF0, 0x80, 0xF0, 0x10, 0xF0],
   [0xF0, 0x80, 0xF0, 0x90, 0xF0], [0xF0, 0x10, 0x20, 0x40, 0x40],
   [0xF0, 0x90, 0xF0, 0x90, 0xF0], [0xF0, 0x90, 0xF0, 0x10, 0xF0],
   [0xF0, 0x90, 0xF0, 0x90, 0x90], [0xE0, 0x90, 0xE0, 0x90, 0xE0],
   [0xF0, 0x80, 0x80, 0x80, 0xF0], [0xE0, 0x90, 0x90, 0x90, 0xE0],
   [0xF0, 0x80, 0xF0, 0x80, 0xF0], [0xF0, 0x80, 0xF0, 0x80, 0x80]]

/-- `FONT_BYTES`: the 80 bytes of the font in address order (R42). -/
def Params.fontBytes : List Byte := Params.glyphs.flatten

end Sys2Proof.Machine
end

