-- ==== Sys2Proof/Syntax.lean ====
section
/-! DEFINITION. The 35 instruction forms of spec/30_encoding.md R55, one constructor per row of
spec/opcode_table.json, with the fields of R49 as arguments. -/

namespace Sys2Proof

/-- One of the 35 instruction forms (R55); the words are in R50 and R51. -/
inductive Instr where
  /-- 0nnn `SYS nnn`, nnn neither 0x0E0 nor 0x0EE (R61) -/
  | sys (nnn : Addr12)
  /-- 00E0 `CLS` (R90) -/
  | cls
  /-- 00EE `RET` (R62) -/
  | ret
  /-- 1nnn `JP nnn` (R63) -/
  | jp (nnn : Addr12)
  /-- 2nnn `CALL nnn` (R64) -/
  | call (nnn : Addr12)
  /-- 3xkk `SE Vx, kk` (R66) -/
  | seImm (x : RegNum) (kk : Byte)
  /-- 4xkk `SNE Vx, kk` (R67) -/
  | sneImm (x : RegNum) (kk : Byte)
  /-- 5xy0 `SE Vx, Vy` (R68) -/
  | seReg (x y : RegNum)
  /-- 6xkk `LD Vx, kk` (R72) -/
  | ldImm (x : RegNum) (kk : Byte)
  /-- 7xkk `ADD Vx, kk` (R73) -/
  | addImm (x : RegNum) (kk : Byte)
  /-- 8xy0 `LD Vx, Vy` (R74) -/
  | ldReg (x y : RegNum)
  /-- 8xy1 `OR Vx, Vy` (R75) -/
  | orReg (x y : RegNum)
  /-- 8xy2 `AND Vx, Vy` (R76) -/
  | andReg (x y : RegNum)
  /-- 8xy3 `XOR Vx, Vy` (R77) -/
  | xorReg (x y : RegNum)
  /-- 8xy4 `ADD Vx, Vy` (R78) -/
  | addReg (x y : RegNum)
  /-- 8xy5 `SUB Vx, Vy` (R79) -/
  | sub (x y : RegNum)
  /-- 8xy6 `SHR Vx, Vy` (R80) -/
  | shr (x y : RegNum)
  /-- 8xy7 `SUBN Vx, Vy` (R81) -/
  | subn (x y : RegNum)
  /-- 8xyE `SHL Vx, Vy` (R82) -/
  | shl (x y : RegNum)
  /-- 9xy0 `SNE Vx, Vy` (R69) -/
  | sneReg (x y : RegNum)
  /-- Annn `LD I, nnn` (R84) -/
  | ldI (nnn : Addr12)
  /-- Bnnn `JP V0, nnn` (R65) -/
  | jpV0 (nnn : Addr12)
  /-- Cxkk `RND Vx, kk` (R83) -/
  | rnd (x : RegNum) (kk : Byte)
  /-- Dxyn `DRW Vx, Vy, n` (R91) -/
  | drw (x y : RegNum) (n : Nibble)
  /-- Ex9E `SKP Vx` (R98) -/
  | skp (x : RegNum)
  /-- ExA1 `SKNP Vx` (R99) -/
  | sknp (x : RegNum)
  /-- Fx07 `LD Vx, DT` (R95) -/
  | ldVxDt (x : RegNum)
  /-- Fx0A `LD Vx, K` (R100) -/
  | ldVxK (x : RegNum)
  /-- Fx15 `LD DT, Vx` (R96) -/
  | ldDtVx (x : RegNum)
  /-- Fx18 `LD ST, Vx` (R97) -/
  | ldStVx (x : RegNum)
  /-- Fx1E `ADD I, Vx` (R85) -/
  | addI (x : RegNum)
  /-- Fx29 `LD F, Vx` (R86) -/
  | ldF (x : RegNum)
  /-- Fx33 `LD B, Vx` (R87) -/
  | ldB (x : RegNum)
  /-- Fx55 `LD [I], Vx` (R88) -/
  | ldMemVx (x : RegNum)
  /-- Fx65 `LD Vx, [I]` (R89) -/
  | ldVxMem (x : RegNum)
deriving DecidableEq, Repr

end Sys2Proof
end

