-- ==== Sys2Proof/Decode.lean ====
section
/-! DEFINITION. The decoder of spec/30_encoding.md R52, total on all 65536 words and on any bytes, and the encoder
written from the formats of R50 and the map of R51. -/

namespace Sys2Proof

/-- The major opcode `o` = op[15:12] (R49). -/
def fieldO (op : Word) : Nibble := op.extractLsb 15 12

/-- The nibble op[11:8] (R49). -/
def fieldX (op : Word) : Nibble := op.extractLsb 11 8

/-- The nibble op[7:4] (R49). -/
def fieldY (op : Word) : Nibble := op.extractLsb 7 4

/-- The nibble `n` = op[3:0] (R49). -/
def fieldN (op : Word) : Nibble := op.extractLsb 3 0

/-- The immediate byte `kk` = op[7:0] (R49). -/
def fieldKk (op : Word) : Byte := op.extractLsb 7 0

/-- The address `nnn` = op[11:0] (R49). -/
def fieldNnn (op : Word) : Addr12 := op.extractLsb 11 0

/-- The register a 4-bit field selects, "V0..VF directly" (R49). -/
def regOf (b : Nibble) : RegNum := b.toFin

/-- The 4-bit field that selects a register (R49). -/
def bitsOf (x : RegNum) : Nibble := BitVec.ofFin x

/-- What the decoder answers: an instruction form, or `Unknown` (R52). -/
inductive Decoded where
  /-- the word is this instruction -/
  | form (i : Instr)
  /-- the word is illegal; a step that fetches it raises `UnknownInstruction` (R53, R56) -/
  | unknown
deriving DecidableEq, Repr

/-- The 8xy_ row of the opcode map, by the low nibble (R51, R52). -/
def decode8 (x y : RegNum) (n : Nibble) : Decoded :=
  match n with
  | 0x0#4 => .form (.ldReg x y)
  | 0x1#4 => .form (.orReg x y)
  | 0x2#4 => .form (.andReg x y)
  | 0x3#4 => .form (.xorReg x y)
  | 0x4#4 => .form (.addReg x y)
  | 0x5#4 => .form (.sub x y)
  | 0x6#4 => .form (.shr x y)
  | 0x7#4 => .form (.subn x y)
  | 0xE#4 => .form (.shl x y)
  | _ => .unknown

/-- The Ex__ row of the opcode map, by the low byte (R51, R52). -/
def decodeE (x : RegNum) (kk : Byte) : Decoded :=
  match kk with
  | 0x9E#8 => .form (.skp x)
  | 0xA1#8 => .form (.sknp x)
  | _ => .unknown

/-- The Fx__ row of the opcode map, by the low byte (R51, R52). -/
def decodeF (x : RegNum) (kk : Byte) : Decoded :=
  match kk with
  | 0x07#8 => .form (.ldVxDt x)
  | 0x0A#8 => .form (.ldVxK x)
  | 0x15#8 => .form (.ldDtVx x)
  | 0x18#8 => .form (.ldStVx x)
  | 0x1E#8 => .form (.addI x)
  | 0x29#8 => .form (.ldF x)
  | 0x33#8 => .form (.ldB x)
  | 0x55#8 => .form (.ldMemVx x)
  | 0x65#8 => .form (.ldVxMem x)
  | _ => .unknown

/-- `decode(op)` of R52, under the switch `STRICT_LOW_NIBBLE`. -/
def decodeWith (strict : Bool) (op : Word) : Decoded :=
  let x := regOf (fieldX op)
  let y := regOf (fieldY op)
  let n := fieldN op
  let kk := fieldKk op
  let nnn := fieldNnn op
  match fieldO op with
  | 0x0#4 => if op = 0x00E0 then .form .cls else if op = 0x00EE then .form .ret else .form (.sys nnn)
  | 0x1#4 => .form (.jp nnn)
  | 0x2#4 => .form (.call nnn)
  | 0x3#4 => .form (.seImm x kk)
  | 0x4#4 => .form (.sneImm x kk)
  | 0x5#4 => if n = 0 || !strict then .form (.seReg x y) else .unknown
  | 0x6#4 => .form (.ldImm x kk)
  | 0x7#4 => .form (.addImm x kk)
  | 0x8#4 => decode8 x y n
  | 0x9#4 => if n = 0 || !strict then .form (.sneReg x y) else .unknown
  | 0xA#4 => .form (.ldI nnn)
  | 0xB#4 => .form (.jpV0 nnn)
  | 0xC#4 => .form (.rnd x kk)
  | 0xD#4 => .form (.drw x y n)
  | 0xE#4 => decodeE x kk
  | _ => decodeF x kk

/-- This hardware's decoder: R52 with `STRICT_LOW_NIBBLE` = true (R6). -/
def decode (op : Word) : Decoded := decodeWith Machine.Params.strictLowNibble op

/-- The opcode word of two bytes, the first in bits 15..8 (R36, R56). -/
def wordOf (hi lo : Byte) : Word := hi ++ lo

/-- What the decoder answers for a string of bytes. -/
inductive DecodedBytes where
  /-- the bytes begin with this instruction, and these follow it -/
  | form (i : Instr) (rest : List Byte)
  /-- the bytes begin with this illegal word (R53) -/
  | unknown (op : Word)
  /-- fewer than the two bytes every instruction has (R48) -/
  | tooShort
deriving DecidableEq, Repr

/-- The decoder on any bytes: the two bytes of the word, high byte first (R36, R48). -/
def decodeBytes : List Byte → DecodedBytes
  | hi :: lo :: rest =>
    match decode (wordOf hi lo) with
    | .form i => .form i rest
    | .unknown => .unknown (wordOf hi lo)
  | _ => .tooShort

/-- The two bytes of a word as memory holds them, high byte at the lower address (R36). -/
def bytesOf (op : Word) : List Byte := [op.extractLsb 15 8, op.extractLsb 7 0]

/-- The word that `spec/opcode_table.json` numbers `w` with `nbits` bits; every bit above `nbits` is 0. -/
def tableWord (nbits w : Nat) : Word := BitVec.ofNat 16 (w % 2 ^ nbits)

/-- The instruction the decoder reads from the bytes of `tableWord`; an instruction has 16 bits, no more (R48). -/
def decodeTableWord (nbits w : Nat) : Option Instr :=
  if nbits ≤ 16 then
    match decodeBytes (bytesOf (tableWord nbits w)) with
    | .form i _ => some i
    | .unknown _ => none
    | .tooShort => none
  else none

/-- Format `A`: `oooo nnnn nnnn nnnn` (R50). -/
def formatA (o : Nibble) (nnn : Addr12) : Word := o ++ nnn

/-- Format `XK`: `oooo xxxx kkkk kkkk` (R50); format `XF` is the same with a fixed low byte. -/
def formatXK (o : Nibble) (x : RegNum) (kk : Byte) : Word := o ++ bitsOf x ++ kk

/-- Format `XYN`: `oooo xxxx yyyy nnnn` (R50); format `XYF` is the same with a fixed low nibble. -/
def formatXYN (o : Nibble) (x y : RegNum) (n : Nibble) : Word := o ++ bitsOf x ++ bitsOf y ++ n

/-- The word of an instruction, from the formats of R50 and the map of R51. -/
def encode : Instr → Word
  | .sys nnn => formatA 0x0 nnn
  | .cls => 0x00E0
  | .ret => 0x00EE
  | .jp nnn => formatA 0x1 nnn
  | .call nnn => formatA 0x2 nnn
  | .seImm x kk => formatXK 0x3 x kk
  | .sneImm x kk => formatXK 0x4 x kk
  | .seReg x y => formatXYN 0x5 x y 0x0
  | .ldImm x kk => formatXK 0x6 x kk
  | .addImm x kk => formatXK 0x7 x kk
  | .ldReg x y => formatXYN 0x8 x y 0x0
  | .orReg x y => formatXYN 0x8 x y 0x1
  | .andReg x y => formatXYN 0x8 x y 0x2
  | .xorReg x y => formatXYN 0x8 x y 0x3
  | .addReg x y => formatXYN 0x8 x y 0x4
  | .sub x y => formatXYN 0x8 x y 0x5
  | .shr x y => formatXYN 0x8 x y 0x6
  | .subn x y => formatXYN 0x8 x y 0x7
  | .shl x y => formatXYN 0x8 x y 0xE
  | .sneReg x y => formatXYN 0x9 x y 0x0
  | .ldI nnn => formatA 0xA nnn
  | .jpV0 nnn => formatA 0xB nnn
  | .rnd x kk => formatXK 0xC x kk
  | .drw x y n => formatXYN 0xD x y n
  | .skp x => formatXK 0xE x 0x9E
  | .sknp x => formatXK 0xE x 0xA1
  | .ldVxDt x => formatXK 0xF x 0x07
  | .ldVxK x => formatXK 0xF x 0x0A
  | .ldDtVx x => formatXK 0xF x 0x15
  | .ldStVx x => formatXK 0xF x 0x18
  | .addI x => formatXK 0xF x 0x1E
  | .ldF x => formatXK 0xF x 0x29
  | .ldB x => formatXK 0xF x 0x33
  | .ldMemVx x => formatXK 0xF x 0x55
  | .ldVxMem x => formatXK 0xF x 0x65

/-- The match and the mask of an instruction's row of spec/opcode_table.json (under `STRICT_LOW_NIBBLE` = true). -/
def tableRow : Instr → Word × Word
  | .sys _ => (0x0000, 0xF000)
  | .cls => (0x00E0, 0xFFFF)
  | .ret => (0x00EE, 0xFFFF)
  | .jp _ => (0x1000, 0xF000)
  | .call _ => (0x2000, 0xF000)
  | .seImm _ _ => (0x3000, 0xF000)
  | .sneImm _ _ => (0x4000, 0xF000)
  | .seReg _ _ => (0x5000, 0xF00F)
  | .ldImm _ _ => (0x6000, 0xF000)
  | .addImm _ _ => (0x7000, 0xF000)
  | .ldReg _ _ => (0x8000, 0xF00F)
  | .orReg _ _ => (0x8001, 0xF00F)
  | .andReg _ _ => (0x8002, 0xF00F)
  | .xorReg _ _ => (0x8003, 0xF00F)
  | .addReg _ _ => (0x8004, 0xF00F)
  | .sub _ _ => (0x8005, 0xF00F)
  | .shr _ _ => (0x8006, 0xF00F)
  | .subn _ _ => (0x8007, 0xF00F)
  | .shl _ _ => (0x800E, 0xF00F)
  | .sneReg _ _ => (0x9000, 0xF00F)
  | .ldI _ => (0xA000, 0xF000)
  | .jpV0 _ => (0xB000, 0xF000)
  | .rnd _ _ => (0xC000, 0xF000)
  | .drw _ _ _ => (0xD000, 0xF000)
  | .skp _ => (0xE09E, 0xF0FF)
  | .sknp _ => (0xE0A1, 0xF0FF)
  | .ldVxDt _ => (0xF007, 0xF0FF)
  | .ldVxK _ => (0xF00A, 0xF0FF)
  | .ldDtVx _ => (0xF015, 0xF0FF)
  | .ldStVx _ => (0xF018, 0xF0FF)
  | .addI _ => (0xF01E, 0xF0FF)
  | .ldF _ => (0xF029, 0xF0FF)
  | .ldB _ => (0xF033, 0xF0FF)
  | .ldMemVx _ => (0xF055, 0xF0FF)
  | .ldVxMem _ => (0xF065, 0xF0FF)

end Sys2Proof
end

