-- ==== Sys2Proof/Machine/State.lean ====
section
/-! DEFINITION. The Machine State of spec/10_state.md R12 as plain data, its value at creation (R30), and the reasons
a step can stop. -/

namespace Sys2Proof.Machine

/-- The framebuffer: 32 rows of 64 one-bit pixels, row-major, true means on (R25). -/
abbrev Frame := Vector (Vector Bool 64) 32

/-- The fault kinds of spec/60_exceptions.md R101. -/
inductive FaultKind where
  /-- the opcode matches no defined form, or is SYS under `SYS_POLICY` = fault (raised by decode and 0nnn) -/
  | unknownInstruction
  /-- a call exceeds 16-deep nesting (raised by 2nnn) -/
  | stackOverflow
  /-- a return with an empty stack (raised by 00EE) -/
  | stackUnderflow
  /-- a memory or index access outside [0, 4095] (raised by the fetch, Bnnn, Fx1E, Fx33, Fx55, Fx65, Dxyn) -/
  | addressOutOfRange
  /-- Vx > 0xF names no key (raised by Ex9E, ExA1 under `KEY_INDEX_POLICY` = fault) -/
  | keyIndexOutOfRange
deriving DecidableEq, Repr

/-- What a fault records besides its kind (R102). -/
inductive FaultInfo where
  /-- nothing: `StackOverflow`, `StackUnderflow` -/
  | nothing
  /-- the 16-bit opcode: `UnknownInstruction` -/
  | opcode (op : Word)
  /-- an address above 0xFFF, a natural number (R34): `AddressOutOfRange` -/
  | address (a : Nat)
  /-- the value of Vx: `KeyIndexOutOfRange` -/
  | key (k : Byte)
deriving DecidableEq, Repr

/-- The fault record of R103. -/
structure FaultRecord where
  /-- the kind (R101) -/
  kind : FaultKind
  /-- the address the faulting step fetched from -/
  pc : Word
  /-- the fetched word, none when the fetch itself faulted -/
  opcode : Option Word
  /-- the info (R102) -/
  info : FaultInfo
deriving DecidableEq, Repr

/-- The Machine State (R12), and one field of the model's own, `draws`. -/
structure State where
  /-- memory: cells that differ from the creation contents, addresses strictly rising (R32; log 10) -/
  mem : List Host.Cell
  /-- the general registers V0..VF (R13) -/
  v : Vector Byte 16
  /-- the index register I (R16) -/
  i : Word
  /-- the program counter PC (R17) -/
  pc : Word
  /-- the return addresses, oldest first (R19) -/
  stack : List Word
  /-- the delay timer DT (R22) -/
  dt : Byte
  /-- the sound timer ST (R23) -/
  st : Byte
  /-- the framebuffer FB (R25) -/
  fb : Frame
  /-- the keypad KEY, true means pressed (R26) -/
  key : Vector Bool 16
  /-- the fault latch, none while the core runs (R28) -/
  fault : Option FaultRecord
  /-- DESIGN CHOICE (log 8): the model's own place in the streams of free values `Config.drawU8`, `Config.drawKey` -/
  draws : Nat
deriving DecidableEq, Repr

/-- Why a step answers no next state. -/
inductive Fault where
  /-- Answered by `step` on a core whose latch is set: the step executes and changes nothing and returns the latched
  kind (R105, M10). Safe: the spec gives the same result. -/
  | latched (kind : FaultKind)
deriving DecidableEq, Repr

/-- Why the model refuses an instruction. -/
inductive Refusal where
  /-- An instruction without a meaning in `exec`; no arm of this model answers it. Safe. -/
  | notModelled (mnemonic : String)
deriving DecidableEq, Repr

/-- The core as it is created (R30, R121); the values R30 marks as decisions are in log 7, `draws` in log 8. -/
def State.reset : State where
  mem := []
  v := Vector.replicate 16 0
  i := 0
  pc := 0x200
  stack := []
  dt := 0
  st := 0
  fb := Vector.replicate 32 (Vector.replicate 64 false)
  key := Vector.replicate 16 false
  fault := none
  draws := 0

end Sys2Proof.Machine
end

