-- ==== Sys2Proof/Machine/Memory.lean ====
section
/-! DEFINITION. The contents of the one memory (spec/20_memory.md R32) as a list of cells in canonical form: addresses
strictly rising, no cell equal to the creation contents. Nothing here checks a range; the arbiter does, in
Sys2Proof/Machine/Ops.lean. -/

namespace Sys2Proof.Machine

/-- What an address holds when the core is created, and so what an unlisted address reads as: the font at
`FONT_BASE`, 0x00 everywhere else (R30, R42; log 9, log 10). -/
def creationByte (a : Nat) : Byte :=
  if Params.fontBase ≤ a then Params.fontBytes.getD (a - Params.fontBase) 0 else 0

/-- The byte at address `a` (R43: the latest write, or the creation value). -/
def Memory.read : List Host.Cell → Nat → Byte
  | [], a => creationByte a
  | (k, b) :: m, a => if a = k then b else Memory.read m a

/-- The cells without the one at address `a`. -/
def Memory.erase (m : List Host.Cell) (a : Nat) : List Host.Cell := m.filter (fun c => c.1 != a)

/-- The cells with a cell for address `a`, which is not among them, in its place. -/
def Memory.insert (a : Nat) (b : Byte) : List Host.Cell → List Host.Cell
  | [] => [(a, b)]
  | (k, c) :: m => if a < k then (a, b) :: (k, c) :: m else (k, c) :: Memory.insert a b m

/-- The cells after byte `b` is written at address `a`; writing the creation contents removes the cell. -/
def Memory.write (m : List Host.Cell) (a : Nat) (b : Byte) : List Host.Cell :=
  if b = creationByte a then Memory.erase m a else Memory.insert a b (Memory.erase m a)

/-- The cells after the bytes are written at `a`, `a + 1`, ... in order. -/
def Memory.writeBytes : List Host.Cell → Nat → List Byte → List Host.Cell
  | m, _, [] => m
  | m, a, b :: bs => Memory.writeBytes (Memory.write m a b) (a + 1) bs

/-- The bytes at `a`, `a + 1`, ..., `a + n - 1`. -/
def Memory.readBytes (m : List Host.Cell) : Nat → Nat → List Byte
  | _, 0 => []
  | a, n + 1 => Memory.read m a :: Memory.readBytes m (a + 1) n

/-- The canonical form: addresses strictly rising, no cell equal to the creation contents. -/
abbrev Memory.wf (m : List Host.Cell) : Prop :=
  m.Pairwise (fun c d => c.1 < d.1) ∧ ∀ c ∈ m, c.2 ≠ creationByte c.1

/-- Every cell lies in the address space 0x000..0xFFF (R32). -/
abbrev Memory.inSpace (m : List Host.Cell) : Prop := ∀ c ∈ m, c.1 < Config.memSize

end Sys2Proof.Machine
end

