-- ==== Sys2Proof/Machine/Ops.lean ====
section
/-! DEFINITION. The named operations over registers, memory, stack, framebuffer and keypad, and the one way a step
raises a fault (spec/60_exceptions.md R104). Each sub-block of spec/00_scope.md R2 is a section here. -/

namespace Sys2Proof.Machine

/-! ### Registers (R13 to R18) -/

/-- `V[r]` (R9, R13). -/
def State.readV (s : State) (r : RegNum) : Byte := s.v[r.val]

/-- `V[r] <- b` (R9, R14). -/
def State.writeV (s : State) (r : RegNum) (b : Byte) : State := { s with v := s.v.set r.val b }

/-- `V[r], V[r + 1], ... <-` the bytes, up to VF (R89). -/
def State.writeVs : State → Nat → List Byte → State
  | s, _, [] => s
  | s, r, b :: bs => (if h : r < 16 then s.writeV ⟨r, h⟩ b else s).writeVs (r + 1) bs

/-- The values of V0, V1, ..., Vx (R88). -/
def State.readVsTo (s : State) (x : RegNum) : List Byte := s.v.toList.take (x.val + 1)

/-- `I <- w` (R16). -/
def State.setI (s : State) (w : Word) : State := { s with i := w }

/-- `PC <- w` (R17). -/
def State.setPc (s : State) (w : Word) : State := { s with pc := w }

/-- `DT <- b` (R22). -/
def State.setDt (s : State) (b : Byte) : State := { s with dt := b }

/-- `ST <- b` (R23). -/
def State.setSt (s : State) (b : Byte) : State := { s with st := b }

/-- The advance of PC by 2 that precedes every execution (R17, R56, R57). -/
def State.advance (s : State) : State := s.setPc (s.pc + 2)

/-- `skip(): PC <- PC + 2`, after the advance (R60). -/
def State.skip (s : State) : State := s.setPc (s.pc + 2)

/-- `if c then skip()` (R66 to R69, R98, R99). -/
def State.skipIf (s : State) (c : Bool) : State := if c then s.skip else s

/-! ### Faults (R101 to R104) -/

/-- A fault as an instruction raises it: `raise K(info)` of R9, with the kinds of R101 and the info of R102. -/
inductive Cause where
  /-- `UnknownInstruction(op)` -/
  | unknownInstruction (op : Word)
  /-- `StackOverflow` -/
  | stackOverflow
  /-- `StackUnderflow` -/
  | stackUnderflow
  /-- `AddressOutOfRange(a)` -/
  | addressOutOfRange (a : Nat)
  /-- `KeyIndexOutOfRange(k)` -/
  | keyIndexOutOfRange (k : Byte)
deriving DecidableEq, Repr

/-- The kind of a raised fault (R101). -/
def kindOf : Cause → FaultKind
  | .unknownInstruction _ => .unknownInstruction
  | .stackOverflow => .stackOverflow
  | .stackUnderflow => .stackUnderflow
  | .addressOutOfRange _ => .addressOutOfRange
  | .keyIndexOutOfRange _ => .keyIndexOutOfRange

/-- The info of a raised fault (R102). -/
def infoOf : Cause → FaultInfo
  | .unknownInstruction op => .opcode op
  | .stackOverflow => .nothing
  | .stackUnderflow => .nothing
  | .addressOutOfRange a => .address a
  | .keyIndexOutOfRange k => .key k

/-- The numeric code of a fault kind (R101, D22). -/
def codeOf : FaultKind → Nat
  | .unknownInstruction => 1
  | .stackOverflow => 2
  | .stackUnderflow => 3
  | .addressOutOfRange => 4
  | .keyIndexOutOfRange => 5

/-- Taking a fault in the step that fetched from `s.pc`, `s` being the state before that step (R103, R104): every
write of the step is discarded, PC is ipc, and the latch is set. -/
def State.raise (s : State) (c : Cause) (opcode : Option Word) : State :=
  { s with fault := some { kind := kindOf c, pc := s.pc, opcode := opcode, info := infoOf c } }

/-- Clearing the latch, which a successful `load` does and nothing else (R105, R108, R124). -/
def State.clearFault (s : State) : State := { s with fault := none }

/-- The end of instruction `i` executed at `s`: the state its effect gives, or the fault it raises, taken as the next
state (R56, R104; log 1). The fetched word is `encode i` (log 20). -/
def attempt (i : Instr) (s : State) : Except Cause State → Host.Outcome State Fault Refusal
  | .ok t => .next t
  | .error c => .next (s.raise c (some (encode i)))

/-! ### The memory arbiter (R34, R35) -/

/-- The range check of the `n` addresses `a`, `a + 1`, ...: the lowest one above 0xFFF is reported (R35, R102). -/
def rangeCheck (a n : Nat) : Except Cause Unit :=
  if 0 < n ∧ 0xFFF < a + n - 1 then .error (.addressOutOfRange (max a 0x1000)) else .ok ()

/-- `MemRead(a, 1)` (R34). -/
def State.memRead (s : State) (a : Nat) : Except Cause Byte :=
  if 0xFFF < a then .error (.addressOutOfRange a) else .ok (Memory.read s.mem a)

/-- `MemRead(a + r, 1)` for r = 0 .. n - 1, all addresses checked first (R34, R35). -/
def State.memReadBytes (s : State) (a n : Nat) : Except Cause (List Byte) :=
  match rangeCheck a n with
  | .error c => .error c
  | .ok () => .ok (Memory.readBytes s.mem a n)

/-- `MemWrite(a + r, 1, bs[r])` for every r, all addresses checked first (R34, R35). -/
def State.memWriteBytes (s : State) (a : Nat) (bs : List Byte) : Except Cause State :=
  match rangeCheck a bs.length with
  | .error c => .error c
  | .ok () => .ok { s with mem := Memory.writeBytes s.mem a bs }

/-! ### The stack controller (R19 to R21) -/

/-- `push(w)` (R20). -/
def State.push (s : State) (w : Word) : Except Cause State :=
  if s.stack.length < Config.stackDepth then .ok { s with stack := s.stack ++ [w] } else .error .stackOverflow

/-- `pop()`: the top entry, and the state without it (R21). -/
def State.pop (s : State) : Except Cause (Word × State) :=
  match s.stack.getLast? with
  | none => .error .stackUnderflow
  | some w => .ok (w, { s with stack := s.stack.dropLast })

/-! ### The framebuffer pixel writer and the sprite collision detector (R90 to R93) -/

/-- `FB[y][x]` (R9, R25). -/
def pixel (fb : Frame) (px : Fin 64) (py : Fin 32) : Bool := fb[py.val][px.val]

/-- A framebuffer with every pixel off (R90). -/
def blankFrame : Frame := Vector.replicate 32 (Vector.replicate 64 false)

/-- `write_pixel(px, py)`: the pixel is inverted, and whether it was on is reported (R92). -/
def writePixel (fb : Frame) (px : Fin 64) (py : Fin 32) : Frame × Bool :=
  (fb.set py.val ((fb[py.val]).set px.val (!pixel fb px py)), pixel fb px py)

/-- Where the sprite bit in column c and row r of a sprite at (cx, cy) lands, if on the screen (R91). -/
def spritePos (edge : DrawEdge) (cx cy c r : Nat) : Option (Fin 64 × Fin 32) :=
  match edge with
  | .wrap => some (⟨(cx + c) % 64, Nat.mod_lt _ (by decide)⟩, ⟨(cy + r) % 32, Nat.mod_lt _ (by decide)⟩)
  | .clip => if h : cx + c < 64 ∧ cy + r < 32 then some (⟨cx + c, h.1⟩, ⟨cy + r, h.2⟩) else none

/-- Bit 7 - c of a sprite row: bit 7 is the leftmost pixel (R91, D15; log 26). -/
def spriteBit (row : Byte) (c : Nat) : Bool := row.getLsbD (7 - c)

/-- One turn of Dxyn's loop, for column c of row r: the framebuffer and `hit` so far (R91). -/
def drawBit (edge : DrawEdge) (cx cy : Nat) (row : Byte) (r : Nat) (acc : Frame × Bool) (c : Nat) : Frame × Bool :=
  if spriteBit row c then
    match spritePos edge cx cy c r with
    | none => acc
    | some p => ((writePixel acc.1 p.1 p.2).1, acc.2 || (writePixel acc.1 p.1 p.2).2)
  else acc

/-- The eight columns of sprite row r (R91). -/
def drawRow (edge : DrawEdge) (cx cy : Nat) (row : Byte) (r : Nat) (acc : Frame × Bool) : Frame × Bool :=
  [0, 1, 2, 3, 4, 5, 6, 7].foldl (drawBit edge cx cy row r) acc

/-- The sprite rows from row r on (R91). -/
def drawRows (edge : DrawEdge) (cx cy : Nat) : Nat → List Byte → Frame × Bool → Frame × Bool
  | _, [], acc => acc
  | r, row :: rows, acc => drawRows edge cx cy (r + 1) rows (drawRow edge cx cy row r acc)

/-! ### The keypad and the free values (R26, R27, R100) -/

/-- `KEY[k]` (R9, R26). -/
def State.keyDown (s : State) (k : RegNum) : Bool := s.key[k.val]

/-- `KEY[k] <- p` (R114). -/
def State.writeKey (s : State) (k : RegNum) (p : Bool) : State := { s with key := s.key.set k.val p }

/-- The set P of R100: the keys pressed now, lowest first. -/
def State.pressed (s : State) : List RegNum := (List.finRange 16).filter s.keyDown

/-- The state with the next place in the streams of free values. -/
def State.drawn (s : State) : State := { s with draws := s.draws + 1 }

/-- `draw_u8()`: a fresh byte of the random source (R27; log 3). -/
def State.drawU8 (s : State) : Byte := Config.drawU8 s.draws

/-- "any element of P": a free choice from a non-empty list (R100, M14; log 4). -/
def State.drawFrom (s : State) (k : RegNum) (ks : List RegNum) : RegNum :=
  (k :: ks).getD (Config.drawKey s.draws % (ks.length + 1)) k

end Sys2Proof.Machine
end

