-- ==== Sys2Proof/Machine/Flags.lean ====
section
/-! DEFINITION. Every flag computation of the instruction set (spec/10_state.md R15): carry, no borrow, the bit a
shift drops, the collision, and the logic operations' VF. A result and its flag are written by one operation, the
flag last (spec/00_scope.md R10). -/

namespace Sys2Proof.Machine

/-- Carry: the unsigned 8-bit sum exceeds 255 (R71, R78). -/
def carry (a b : Byte) : Bool := decide (255 < a.toNat + b.toNat)

/-- No borrow of a - b: a >= b, unsigned (R71, R79, R81). -/
def noBorrow (a b : Byte) : Bool := decide (b.toNat ≤ a.toNat)

/-- The bit a right shift by one drops: `c & 1` (R80). -/
def droppedLow (c : Byte) : Bool := c.getLsbD 0

/-- The bit a left shift by one drops: `c >> 7` (R82). -/
def droppedHigh (c : Byte) : Bool := c.getLsbD 7

/-- `V[x] <- result`, then `V[0xF] <- flag`: with x = 0xF, VF ends holding the flag (R10, D6; log 25). -/
def State.writeResultFlag (s : State) (x : RegNum) (result : Byte) (flag : Bool) : State :=
  (s.writeV x result).writeV vf (flagByte flag)

/-- `V[x] <- result`, then `V[0xF] <- 0` only under `LOGIC_RESETS_VF` = true (R75 to R77). -/
def State.writeLogic (resets : Bool) (s : State) (x : RegNum) (result : Byte) : State :=
  if resets then (s.writeV x result).writeV vf 0 else s.writeV x result

end Sys2Proof.Machine
end

