-- ==== Sys2Proof/Machine/Operands.lean ====
section
/-! DEFINITION. How the operands of an instruction are formed from its fields and the state (spec/30_encoding.md R49
and the instruction rules). -/

namespace Sys2Proof.Machine

/-- `zext_16(nnn)` (R49, R63, R64, R84). -/
def zext16 (nnn : Addr12) : Word := nnn.setWidth 16

/-- A computed address that must lie in [0, 4095] to be used (R65, R85). -/
def checkedAddress (t : Nat) : Except Cause Word :=
  if 0xFFF < t then .error (.addressOutOfRange t) else .ok (BitVec.ofNat 16 t)

/-- The register 8xy6 and 8xyE shift, by `SHIFT_SOURCE` (R80, R82). -/
def shiftOperand (source : ShiftSource) (x y : RegNum) (s : State) : Byte :=
  match source with
  | .vx => s.readV x
  | .vy => s.readV y

/-- The register Bnnn adds, by `JUMP_OFFSET_REG`: V0, or Vx with x = op[11:8], the high nibble of nnn (R65). -/
def jumpRegister (reg : JumpOffsetReg) (nnn : Addr12) : RegNum :=
  match reg with
  | .v0 => 0
  | .vx => regOf (nnn.extractLsb 11 8)

/-- The key number in Vx, by `KEY_INDEX_POLICY` (R98, R99). -/
def keyNumber (policy : KeyIndexPolicy) (b : Byte) : Except Cause RegNum :=
  if h : b.toNat < 16 then .ok ⟨b.toNat, h⟩
  else
    match policy with
    | .fault => .error (.keyIndexOutOfRange b)
    | .lowNibble => .ok ⟨b.toNat % 16, Nat.mod_lt _ (by decide)⟩

/-- The address of the glyph for the low nibble of a byte (R86). -/
def glyphAddress (b : Byte) : Word := BitVec.ofNat 16 (Params.fontBase + Params.glyphBytes * (b.toNat % 16))

/-- The three decimal digits of a byte, hundreds first (R87, D18; log 27). -/
def decimalDigits (b : Byte) : List Byte :=
  [BitVec.ofNat 8 (b.toNat / 100), BitVec.ofNat 8 (b.toNat / 10 % 10), BitVec.ofNat 8 (b.toNat % 10)]

/-- I after Fx55 or Fx65, by `LOADSTORE_I_MODE` (R88, R89). -/
def indexAfter (mode : LoadStoreIMode) (i : Word) (x : RegNum) : Word :=
  match mode with
  | .unchanged => i
  | .increment => i + BitVec.ofNat 16 (x.val + 1)

end Sys2Proof.Machine
end

