-- ==== Sys2Proof/Machine/Alu.lean ====
section
/-! DEFINITION. Register arithmetic and logic (spec/41_alu.md R71 to R83). Operands are read from the state before the
step, results are written to the advanced state, and no instruction of this family can fault (R71). -/

namespace Sys2Proof.Machine

/-- LD Vx, kk (R72). -/
def execLdImm (x : RegNum) (kk : Byte) (s : State) : Host.Outcome State Fault Refusal :=
  .next (s.advance.writeV x kk)

/-- ADD Vx, kk (R73): 8-bit wraparound, no flag. -/
def execAddImm (x : RegNum) (kk : Byte) (s : State) : Host.Outcome State Fault Refusal :=
  .next (s.advance.writeV x (s.readV x + kk))

/-- LD Vx, Vy (R74). -/
def execLdReg (x y : RegNum) (s : State) : Host.Outcome State Fault Refusal :=
  .next (s.advance.writeV x (s.readV y))

/-- OR Vx, Vy (R75). -/
def execOrReg (x y : RegNum) (s : State) : Host.Outcome State Fault Refusal :=
  .next (s.advance.writeLogic Params.logicResetsVf x (s.readV x ||| s.readV y))

/-- AND Vx, Vy (R76). -/
def execAndReg (x y : RegNum) (s : State) : Host.Outcome State Fault Refusal :=
  .next (s.advance.writeLogic Params.logicResetsVf x (s.readV x &&& s.readV y))

/-- XOR Vx, Vy (R77). -/
def execXorReg (x y : RegNum) (s : State) : Host.Outcome State Fault Refusal :=
  .next (s.advance.writeLogic Params.logicResetsVf x (s.readV x ^^^ s.readV y))

/-- ADD Vx, Vy (R78): VF = carry. -/
def execAddReg (x y : RegNum) (s : State) : Host.Outcome State Fault Refusal :=
  .next (s.advance.writeResultFlag x (s.readV x + s.readV y) (carry (s.readV x) (s.readV y)))

/-- SUB Vx, Vy (R79): VF = no borrow. -/
def execSub (x y : RegNum) (s : State) : Host.Outcome State Fault Refusal :=
  .next (s.advance.writeResultFlag x (s.readV x - s.readV y) (noBorrow (s.readV x) (s.readV y)))

/-- 8xy6 under a given `SHIFT_SOURCE` (R80): VF = the dropped low bit. -/
def shiftRight (source : ShiftSource) (x y : RegNum) (s : State) : State :=
  s.advance.writeResultFlag x (shiftOperand source x y s >>> 1) (droppedLow (shiftOperand source x y s))

/-- SHR Vx, Vy (R80). -/
def execShr (x y : RegNum) (s : State) : Host.Outcome State Fault Refusal :=
  .next (shiftRight Params.shiftSource x y s)

/-- SUBN Vx, Vy (R81): VF = no borrow of the reversed subtraction. -/
def execSubn (x y : RegNum) (s : State) : Host.Outcome State Fault Refusal :=
  .next (s.advance.writeResultFlag x (s.readV y - s.readV x) (noBorrow (s.readV y) (s.readV x)))

/-- 8xyE under a given `SHIFT_SOURCE` (R82): VF = the dropped high bit. -/
def shiftLeft (source : ShiftSource) (x y : RegNum) (s : State) : State :=
  s.advance.writeResultFlag x (shiftOperand source x y s <<< 1) (droppedHigh (shiftOperand source x y s))

/-- SHL Vx, Vy (R82). -/
def execShl (x y : RegNum) (s : State) : Host.Outcome State Fault Refusal :=
  .next (shiftLeft Params.shiftSource x y s)

/-- RND Vx, kk (R83): a fresh draw, masked. -/
def execRnd (x : RegNum) (kk : Byte) (s : State) : Host.Outcome State Fault Refusal :=
  .next (s.advance.drawn.writeV x (s.drawU8 &&& kk))

end Sys2Proof.Machine
end

