-- ==== Sys2Proof/Machine/ControlFlow.lean ====
section
/-! DEFINITION. Control transfer and skips (spec/40_control_flow.md R60 to R70). Every meaning takes the state before
the step, PC = ipc; `State.advance` is the advance to ipc + 2 that R56 puts before the execution. -/

namespace Sys2Proof.Machine

/-- 0nnn under a given `SYS_POLICY` (R61). -/
def sysEffect (policy : SysPolicy) (nnn : Addr12) (s : State) : Except Cause State :=
  match policy with
  | .fault => .error (.unknownInstruction (encode (.sys nnn)))
  | .nop => .ok s.advance

/-- SYS nnn (R61). -/
def execSys (nnn : Addr12) (s : State) : Host.Outcome State Fault Refusal :=
  attempt (.sys nnn) s (sysEffect Params.sysPolicy nnn s)

/-- RET (R62). -/
def execRet (s : State) : Host.Outcome State Fault Refusal :=
  attempt .ret s
    (match s.advance.pop with
     | .error c => .error c
     | .ok (w, t) => .ok (t.setPc w))

/-- JP nnn (R63). -/
def execJp (nnn : Addr12) (s : State) : Host.Outcome State Fault Refusal :=
  .next (s.advance.setPc (zext16 nnn))

/-- CALL nnn (R64): the return address pushed is ipc + 2. -/
def execCall (nnn : Addr12) (s : State) : Host.Outcome State Fault Refusal :=
  attempt (.call nnn) s
    (match s.advance.push s.advance.pc with
     | .error c => .error c
     | .ok t => .ok (t.setPc (zext16 nnn)))

/-- Bnnn under a given `JUMP_OFFSET_REG` (R65). -/
def jumpOffset (reg : JumpOffsetReg) (nnn : Addr12) (s : State) : Except Cause State :=
  match checkedAddress (nnn.toNat + (s.readV (jumpRegister reg nnn)).toNat) with
  | .error c => .error c
  | .ok t => .ok (s.advance.setPc t)

/-- JP V0, nnn (R65). -/
def execJpV0 (nnn : Addr12) (s : State) : Host.Outcome State Fault Refusal :=
  attempt (.jpV0 nnn) s (jumpOffset Params.jumpOffsetReg nnn s)

/-- SE Vx, kk (R66). -/
def execSeImm (x : RegNum) (kk : Byte) (s : State) : Host.Outcome State Fault Refusal :=
  .next (s.advance.skipIf (s.readV x == kk))

/-- SNE Vx, kk (R67). -/
def execSneImm (x : RegNum) (kk : Byte) (s : State) : Host.Outcome State Fault Refusal :=
  .next (s.advance.skipIf (s.readV x != kk))

/-- SE Vx, Vy (R68). -/
def execSeReg (x y : RegNum) (s : State) : Host.Outcome State Fault Refusal :=
  .next (s.advance.skipIf (s.readV x == s.readV y))

/-- SNE Vx, Vy (R69). -/
def execSneReg (x y : RegNum) (s : State) : Host.Outcome State Fault Refusal :=
  .next (s.advance.skipIf (s.readV x != s.readV y))

end Sys2Proof.Machine
end

