-- ==== Sys2Proof/Machine/Display.lean ====
section
/-! DEFINITION. The two instructions that write the framebuffer (spec/43_display.md R90 to R94). -/

namespace Sys2Proof.Machine

/-- CLS (R90). -/
def execCls (s : State) : Host.Outcome State Fault Refusal :=
  .next { s.advance with fb := blankFrame }

/-- Dxyn under a given `DRAW_EDGE` (R91): the sprite rows are read first, the pixels are written through the pixel
writer (R92), and VF takes the collision (R93) last. -/
def drawSprite (edge : DrawEdge) (x y : RegNum) (n : Nibble) (s : State) : Except Cause State :=
  match s.memReadBytes s.i.toNat n.toNat with
  | .error c => .error c
  | .ok rows =>
    let drawn := drawRows edge ((s.readV x).toNat % 64) ((s.readV y).toNat % 32) 0 rows (s.fb, false)
    .ok ({ s.advance with fb := drawn.1 }.writeV vf (flagByte drawn.2))

/-- DRW Vx, Vy, n (R91). -/
def execDrw (x y : RegNum) (n : Nibble) (s : State) : Host.Outcome State Fault Refusal :=
  attempt (.drw x y n) s (drawSprite Params.drawEdge x y n s)

end Sys2Proof.Machine
end

