-- ==== Sys2Proof/Machine/IndexMemory.lean ====
section
/-! DEFINITION. The index register and memory transfers (spec/42_index_memory.md R84 to R89). Every address of an
instruction is checked before its first write (R35). -/

namespace Sys2Proof.Machine

/-- LD I, nnn (R84). -/
def execLdI (nnn : Addr12) (s : State) : Host.Outcome State Fault Refusal :=
  .next (s.advance.setI (zext16 nnn))

/-- ADD I, Vx (R85): the sum is a natural number, and above 0xFFF it faults; VF is not written. -/
def execAddI (x : RegNum) (s : State) : Host.Outcome State Fault Refusal :=
  attempt (.addI x) s
    (match checkedAddress (s.i.toNat + (s.readV x).toNat) with
     | .error c => .error c
     | .ok t => .ok (s.advance.setI t))

/-- LD F, Vx (R86). -/
def execLdF (x : RegNum) (s : State) : Host.Outcome State Fault Refusal :=
  .next (s.advance.setI (glyphAddress (s.readV x)))

/-- LD B, Vx (R87). -/
def execLdB (x : RegNum) (s : State) : Host.Outcome State Fault Refusal :=
  attempt (.ldB x) s (s.advance.memWriteBytes s.i.toNat (decimalDigits (s.readV x)))

/-- Fx55 under a given `LOADSTORE_I_MODE` (R88). -/
def storeRegisters (mode : LoadStoreIMode) (x : RegNum) (s : State) : Except Cause State :=
  match s.advance.memWriteBytes s.i.toNat (s.readVsTo x) with
  | .error c => .error c
  | .ok t => .ok (t.setI (indexAfter mode s.i x))

/-- LD [I], Vx (R88). -/
def execLdMemVx (x : RegNum) (s : State) : Host.Outcome State Fault Refusal :=
  attempt (.ldMemVx x) s (storeRegisters Params.loadStoreIMode x s)

/-- Fx65 under a given `LOADSTORE_I_MODE` (R89). -/
def loadRegisters (mode : LoadStoreIMode) (x : RegNum) (s : State) : Except Cause State :=
  match s.memReadBytes s.i.toNat (x.val + 1) with
  | .error c => .error c
  | .ok bs => .ok ((s.advance.writeVs 0 bs).setI (indexAfter mode s.i x))

/-- LD Vx, [I] (R89). -/
def execLdVxMem (x : RegNum) (s : State) : Host.Outcome State Fault Refusal :=
  attempt (.ldVxMem x) s (loadRegisters Params.loadStoreIMode x s)

end Sys2Proof.Machine
end

