-- ==== Sys2Proof/Machine/TimersKeypad.lean ====
section
/-! DEFINITION. The timer accesses, the key skips and the key wait (spec/44_timers_keypad.md R95 to R100). -/

namespace Sys2Proof.Machine

/-- LD Vx, DT (R95). -/
def execLdVxDt (x : RegNum) (s : State) : Host.Outcome State Fault Refusal :=
  .next (s.advance.writeV x s.dt)

/-- LD DT, Vx (R96). -/
def execLdDtVx (x : RegNum) (s : State) : Host.Outcome State Fault Refusal :=
  .next (s.advance.setDt (s.readV x))

/-- LD ST, Vx (R97). -/
def execLdStVx (x : RegNum) (s : State) : Host.Outcome State Fault Refusal :=
  .next (s.advance.setSt (s.readV x))

/-- A key skip under a given `KEY_INDEX_POLICY`: skip if the key's state is `down` (R98, R99). -/
def keySkip (policy : KeyIndexPolicy) (down : Bool) (x : RegNum) (s : State) : Except Cause State :=
  match keyNumber policy (s.readV x) with
  | .error c => .error c
  | .ok k => .ok (s.advance.skipIf (s.keyDown k == down))

/-- SKP Vx (R98). -/
def execSkp (x : RegNum) (s : State) : Host.Outcome State Fault Refusal :=
  attempt (.skp x) s (keySkip Params.keyIndexPolicy true x s)

/-- SKNP Vx (R99). -/
def execSknp (x : RegNum) (s : State) : Host.Outcome State Fault Refusal :=
  attempt (.sknp x) s (keySkip Params.keyIndexPolicy false x s)

/-- LD Vx, K (R100): with no key pressed PC goes back to ipc, and the next step executes this instruction again;
otherwise Vx takes any pressed key. -/
def execLdVxK (x : RegNum) (s : State) : Host.Outcome State Fault Refusal :=
  match s.pressed with
  | [] => .next (s.advance.setPc s.pc)
  | k :: ks => .next (s.advance.drawn.writeV x (BitVec.ofNat 8 (s.drawFrom k ks).val))

end Sys2Proof.Machine
end

