-- ==== Sys2Proof/Machine/Fetch.lean ====
section
/-! DEFINITION. The fetch and decode of a step (spec/30_encoding.md R56), and placing a word where the next step
fetches it. -/

namespace Sys2Proof.Machine

/-- The opcode at PC: both bytes through the arbiter, the high byte first (R34, R36, R56). -/
def State.fetch (s : State) : Except Cause Word :=
  match s.memRead s.pc.toNat with
  | .error c => .error c
  | .ok hi =>
    match s.memRead (s.pc.toNat + 1) with
    | .error c => .error c
    | .ok lo => .ok (wordOf hi lo)

/-- What a running core does next: execute an instruction, or raise a fault of the fetch or of the decode, with the
opcode its record holds (R56, R103, R106). -/
def State.fetchDecode (s : State) : Except (Cause × Option Word) Instr :=
  match s.fetch with
  | .error c => .error (c, none)
  | .ok op =>
    match decode op with
    | .unknown => .error (.unknownInstruction op, some op)
    | .form i => .ok i

/-- The address of the next fetch, if a word can be fetched there; else `PROG_START` (R34, R40). -/
def State.fetchPlace (s : State) : Word := if s.pc.toNat ≤ 0xFFE then s.pc else BitVec.ofNat 16 Config.progStart

/-- A word stored at the place of the next fetch, on a running core: no more is changed than that fetch needs (log 21). -/
def State.placeWord (s : State) (op : Word) : State :=
  { s with
    pc := s.fetchPlace
    fault := none
    mem := Memory.writeBytes s.mem s.fetchPlace.toNat (bytesOf op) }

end Sys2Proof.Machine
end

