-- ==== Sys2Proof/Machine/Step.lean ====
section
/-! DEFINITION. One call of `step()` (spec/30_encoding.md R56, spec/60_exceptions.md R104, R105). -/

namespace Sys2Proof.Machine

/-- `step()`: a latched core executes nothing and changes nothing and returns the latched kind (R105); a running core
fetches, decodes and executes one instruction, a fault of the fetch or the decode being taken as R104 says (R56).
What the call returns is `Ok` when the next state's latch is none and `Fault(kind)` when it is set (log 1). -/
def step (s : State) : Host.Outcome State Fault Refusal :=
  match s.fault with
  | some r => .fault (.latched r.kind)
  | none =>
    match s.fetchDecode with
    | .error (c, opcode) => .next (s.raise c opcode)
    | .ok i => exec i s

/-- `s` with the instruction that spec/opcode_table.json numbers `w` stored where the next step fetches it, on a
running core; it stands for the host's `load` of a program that begins with it (R124, R125; log 21). -/
def State.withFetchWord (s : State) (nbits w : Nat) : State := s.placeWord (tableWord nbits w)

end Sys2Proof.Machine
end

