-- ==== Sys2Proof/Machine/HostOps.lean ====
section
/-! DEFINITION. The operations of the host other than `step` (spec/60_exceptions.md R117): `load`, `tick_timers`,
`set_key` and the two views. Each is atomic and happens between steps (spec/20_memory.md R44). -/

namespace Sys2Proof.Machine

/-- What `load` returns when it rejects a ROM (R109). -/
inductive LoadError where
  /-- the ROM is longer than 3584 bytes; nothing was changed and the latch is not set -/
  | romTooLarge
deriving DecidableEq, Repr

/-- The spec's numeric code of a load error (R109). -/
def loadErrorCode : LoadError → Nat
  | .romTooLarge => 16

/-- The bytes a successful load writes from 0x200 on: the ROM, and zeros above it under `LOAD_RESIDUE` = zero (R124). -/
def loadImage (residue : LoadResidue) (rom : List Byte) : List Byte :=
  match residue with
  | .preserve => rom
  | .zero => rom ++ List.replicate (Config.maxRom - rom.length) 0

/-- The state after a successful load, under given values of the two OPEN parameters (R124). -/
def State.loaded (clearsI : Bool) (residue : LoadResidue) (rom : List Byte) (s : State) : State :=
  { s.clearFault with
    mem := Memory.writeBytes s.mem Config.progStart (loadImage residue rom)
    pc := BitVec.ofNat 16 Config.progStart
    v := Vector.replicate 16 0
    stack := []
    dt := 0
    st := 0
    i := if clearsI then 0 else s.i }

/-- `load(rom)` under given values of the two OPEN parameters: the length is checked first (R122, R123). -/
def State.loadWith (clearsI : Bool) (residue : LoadResidue) (rom : List Byte) (s : State) : Except LoadError State :=
  if rom.length ≤ Config.maxRom then .ok (s.loaded clearsI residue rom) else .error .romTooLarge

/-- `load(rom)`, the OPEN parameters at this hardware's unknown values (R122 to R124; log 5, log 6). -/
def State.load (rom : List Byte) (s : State) : Except LoadError State :=
  s.loadWith Config.loadClearsI Config.loadResidue rom

/-- A timer after one tick: one less, and never below 0 (R22, R112). -/
def ticked (b : Byte) : Byte := if 0 < b.toNat then b - 1 else b

/-- `tick_timers()` (R112). -/
def State.tickTimers (s : State) : State := (s.setDt (ticked s.dt)).setSt (ticked s.st)

/-- `set_key(index, pressed)`; the host has no move with an index above 15 (R114, D28; log 24). -/
def State.setKey (s : State) (k : RegNum) (p : Bool) : State := s.writeKey k p

/-- `framebuffer_view()`: the 64×32 grid (R115). -/
def State.framebufferView (s : State) : Frame := s.fb

/-- `is_sound_active()`: true if and only if ST > 0 (R116). -/
def State.isSoundActive (s : State) : Bool := decide (0 < s.st.toNat)

end Sys2Proof.Machine
end

