-- ==== Sys2Proof/Machine/Interface.lean ====
section
/-! DEFINITION. The host interface as a whole (spec/60_exceptions.md R117): the six calls, what each returns, and a
schedule of calls in an order the host chooses (spec/20_memory.md R44). -/

namespace Sys2Proof.Machine

/-- A call of the host (R117). -/
inductive Call where
  /-- `load(rom)` -/
  | load (rom : List Byte)
  /-- `step()` -/
  | step
  /-- `tick_timers()` -/
  | tickTimers
  /-- `set_key(index, pressed)`, index in 0..15 -/
  | setKey (k : RegNum) (p : Bool)
  /-- `framebuffer_view()` -/
  | framebufferView
  /-- `is_sound_active()` -/
  | isSoundActive
deriving DecidableEq, Repr

/-- What a call returns (R117). -/
inductive Reply where
  /-- `Ok`: a load or a step succeeded -/
  | ok
  /-- `Fault(kind)`: a step raised a fault, or found one latched -/
  | fault (kind : FaultKind)
  /-- `RomTooLarge`: a load was rejected -/
  | romTooLarge
  /-- nothing: `tick_timers`, `set_key` -/
  | nothing
  /-- FB -/
  | frame (fb : Frame)
  /-- ST > 0 -/
  | sound (active : Bool)
deriving DecidableEq, Repr

/-- What a step that went to this state returned: `Ok`, or the fault it latched (R56, R104). -/
def stepReply (t : State) : Reply :=
  match t.fault with
  | none => .ok
  | some r => .fault r.kind

/-- One call of the host on the core: the state after it and the reply (R117). A latched core's step changes nothing
and returns the latched kind (R105). -/
def respond (c : Call) (s : State) : Host.Outcome (State × Reply) Fault Refusal :=
  match c with
  | .load rom =>
    match s.load rom with
    | .ok t => .next (t, .ok)
    | .error .romTooLarge => .next (s, .romTooLarge)
  | .step =>
    match step s with
    | .next t => .next (t, stepReply t)
    | .fault (.latched kind) => .next (s, .fault kind)
    | .refused r => .refused r
  | .tickTimers => .next (s.tickTimers, .nothing)
  | .setKey k p => .next (s.setKey k p, .nothing)
  | .framebufferView => .next (s, .frame s.framebufferView)
  | .isSoundActive => .next (s, .sound s.isSoundActive)

/-- A schedule of calls, first to last, and the replies in the same order (R44: any order the host chooses). -/
def respondAll : List Call → State → Host.Outcome (State × List Reply) Fault Refusal
  | [], s => .next (s, [])
  | c :: cs, s =>
    match respond c s with
    | .fault f => .fault f
    | .refused r => .refused r
    | .next (t, reply) =>
      match respondAll cs t with
      | .fault f => .fault f
      | .refused r => .refused r
      | .next (u, replies) => .next (u, reply :: replies)

end Sys2Proof.Machine
end

