-- ==== Sys2Proof/Safety.lean ====
section
/-! DEFINITION. The terms claims are stated in: what stays unchanged, what a raised fault leaves, how a run ends
(spec/70_reset_and_hazards.md R126), the key wait (R29), and the invariant of the machine. -/

namespace Sys2Proof.Machine

/-- A field of the state (R12), and the model's own `draws`. -/
inductive Part where
  | mem | v | i | pc | stack | dt | st | fb | key | fault | draws
deriving DecidableEq, Repr

/-- The part reads in `t` as it reads in `s`: memory byte by byte, registers, pixels and keys one by one. -/
def Same (p : Part) (s t : State) : Prop :=
  match p with
  | .mem => ∀ a, Memory.read t.mem a = Memory.read s.mem a
  | .v => ∀ r, t.readV r = s.readV r
  | .i => t.i = s.i
  | .pc => t.pc = s.pc
  | .stack => t.stack = s.stack
  | .dt => t.dt = s.dt
  | .st => t.st = s.st
  | .fb => ∀ px py, pixel t.fb px py = pixel s.fb px py
  | .key => ∀ k, t.keyDown k = s.keyDown k
  | .fault => t.fault = s.fault
  | .draws => t.draws = s.draws

/-- Every part but the listed ones reads in `t` as it reads in `s`: the frame of an instruction. -/
def UnchangedBut (ps : List Part) (s t : State) : Prop := ∀ p, p ∉ ps → Same p s t

/-- `t` is what a fault raised in the step at `s` leaves: the record in the latch, everything else, PC among it, as
before the step (R103, R104). -/
def Latches (s t : State) (kind : FaultKind) (opcode : Option Word) (info : FaultInfo) : Prop :=
  t.fault = some { kind := kind, pc := s.pc, opcode := opcode, info := info } ∧ UnchangedBut [.fault] s t

/-- The word at address `a`, high byte first (R36). -/
def wordAt (s : State) (a : Nat) : Word := wordOf (Memory.read s.mem a) (Memory.read s.mem (a + 1))

/-- What address `a` holds once the bytes `bs` are stored at I, I + 1, ... in `s`: the stored byte, or the one before. -/
def byteAfterStore (s : State) (bs : List Byte) (a : Nat) : Byte :=
  if s.i.toNat ≤ a ∧ a < s.i.toNat + bs.length then bs.getD (a - s.i.toNat) 0 else Memory.read s.mem a

/-- The word at address `a` once the bytes `bs` are stored at I in `s`, high byte first (R36, R46). -/
def wordAfterStore (s : State) (bs : List Byte) (a : Nat) : Word :=
  wordOf (byteAfterStore s bs a) (byteAfterStore s bs (a + 1))

/-- The core can run: the latch is not set, and a word can be fetched at PC (R34, R56). -/
def Fetchable (s : State) : Prop := s.fault = none ∧ s.pc.toNat ≤ 0xFFE

/-- The bytes at PC decode to `i` on a core that can run. -/
def AboutToRun (i : Instr) (s : State) : Prop := Fetchable s ∧ decode (wordAt s s.pc.toNat) = .form i

/-- A stopped run: the latch is set (R126). -/
def Stopped (s : State) : Prop := s.fault ≠ none

/-- A parked run: PC = E and the word at E is the self-jump 1nnn with nnn = E (R126). -/
def Parked (s : State) : Prop := Fetchable s ∧ wordAt s s.pc.toNat = formatA 0x1 (s.pc.setWidth 12)

/-- The key wait: PC stands at an Fx0A and no key is pressed (R29, R120). -/
def Waiting (x : RegNum) (s : State) : Prop := AboutToRun (.ldVxK x) s ∧ ∀ k, s.keyDown k = false

/-- Where column c of row r of a sprite at (cx, cy) lands on pixel (px, py), by `DRAW_EDGE` (R91). -/
def Lands (edge : DrawEdge) (cx cy c r : Nat) (px : Fin 64) (py : Fin 32) : Prop :=
  match edge with
  | .wrap => (cx + c) % 64 = px.val ∧ (cy + r) % 32 = py.val
  | .clip => cx + c = px.val ∧ cy + r = py.val

/-- Some 1-bit of the n-row sprite at I, drawn at (Vx mod 64, Vy mod 32), lands on pixel (px, py) (R91, R92). -/
def SpriteCovers (edge : DrawEdge) (s : State) (x y : RegNum) (n : Nat) (px : Fin 64) (py : Fin 32) : Prop :=
  ∃ r c, r < n ∧ c < 8 ∧ (Memory.read s.mem (s.i.toNat + r)).getLsbD (7 - c) = true ∧
    Lands edge ((s.readV x).toNat % 64) ((s.readV y).toNat % 32) c r px py

/-- `t` is `s` after Dxyn under a given `DRAW_EDGE`: exactly the covered pixels are inverted, VF is 1 if one of them was on
and else 0, PC has advanced, and nothing else changed (R91 to R93). -/
def DrawnFrom (edge : DrawEdge) (x y : RegNum) (n : Nat) (s t : State) : Prop :=
  (∀ px py, pixel t.fb px py = true ↔ (pixel s.fb px py = true ↔ ¬ SpriteCovers edge s x y n px py)) ∧
  ((∃ px py, SpriteCovers edge s x y n px py ∧ pixel s.fb px py = true) → t.readV vf = 1) ∧
  ((¬ ∃ px py, SpriteCovers edge s x y n px py ∧ pixel s.fb px py = true) → t.readV vf = 0) ∧
  (∀ r, r ≠ vf → t.readV r = s.readV r) ∧
  t.pc = s.pc + 2 ∧ UnchangedBut [.fb, .v, .pc] s t

/-- The forms of spec/41_alu.md. -/
def isAlu : Instr → Bool
  | .ldImm _ _ | .addImm _ _ | .ldReg _ _ | .orReg _ _ | .andReg _ _ | .xorReg _ _ | .addReg _ _ | .sub _ _
  | .shr _ _ | .subn _ _ | .shl _ _ | .rnd _ _ => true
  | .sys _ | .cls | .ret | .jp _ | .call _ | .seImm _ _ | .sneImm _ _ | .seReg _ _ | .sneReg _ _ | .ldI _ | .jpV0 _
  | .drw _ _ _ | .skp _ | .sknp _ | .ldVxDt _ | .ldVxK _ | .ldDtVx _ | .ldStVx _ | .addI _ | .ldF _ | .ldB _
  | .ldMemVx _ | .ldVxMem _ => false

/-- The forms that write PC besides the advance: jumps, call, return, skips and the key wait (R57). -/
def writesPc : Instr → Bool
  | .ret | .jp _ | .call _ | .seImm _ _ | .sneImm _ _ | .seReg _ _ | .sneReg _ _ | .jpV0 _ | .skp _ | .sknp _
  | .ldVxK _ => true
  | .sys _ | .cls | .ldImm _ _ | .addImm _ _ | .ldReg _ _ | .orReg _ _ | .andReg _ _ | .xorReg _ _ | .addReg _ _
  | .sub _ _ | .shr _ _ | .subn _ _ | .shl _ _ | .ldI _ | .rnd _ _ | .drw _ _ _ | .ldVxDt _ | .ldDtVx _ | .ldStVx _
  | .addI _ | .ldF _ | .ldB _ | .ldMemVx _ | .ldVxMem _ => false

/-- The general registers an instruction may write: its destination, and VF where it sets a flag (R13, R15; under
`LOGIC_RESETS_VF` = false). -/
def writesReg (i : Instr) (r : RegNum) : Bool :=
  match i with
  | .ldImm x _ | .addImm x _ | .ldReg x _ | .orReg x _ | .andReg x _ | .xorReg x _ | .rnd x _ | .ldVxDt x
  | .ldVxK x => r == x
  | .addReg x _ | .sub x _ | .shr x _ | .subn x _ | .shl x _ => r == x || r == vf
  | .drw _ _ _ => r == vf
  | .ldVxMem x => decide (r ≤ x)
  | .sys _ | .cls | .ret | .jp _ | .call _ | .seImm _ _ | .sneImm _ _ | .seReg _ _ | .sneReg _ _ | .ldI _ | .jpV0 _
  | .skp _ | .sknp _ | .ldDtVx _ | .ldStVx _ | .addI _ | .ldF _ | .ldB _ | .ldMemVx _ => false

/-- The one kind of fault an instruction can raise, if any (R106). -/
def faultKindOf : Instr → Option FaultKind
  | .sys _ => some .unknownInstruction
  | .call _ => some .stackOverflow
  | .ret => some .stackUnderflow
  | .jpV0 _ | .addI _ | .ldB _ | .ldMemVx _ | .ldVxMem _ | .drw _ _ _ => some .addressOutOfRange
  | .skp _ | .sknp _ => some .keyIndexOutOfRange
  | .cls | .jp _ | .seImm _ _ | .sneImm _ _ | .seReg _ _ | .sneReg _ _ | .ldImm _ _ | .addImm _ _ | .ldReg _ _
  | .orReg _ _ | .andReg _ _ | .xorReg _ _ | .addReg _ _ | .sub _ _ | .shr _ _ | .subn _ _ | .shl _ _ | .ldI _
  | .rnd _ _ | .ldVxDt _ | .ldVxK _ | .ldDtVx _ | .ldStVx _ | .ldF _ => none

/-- A fault record whose opcode and info are those of its kind (R101 to R103). -/
def recordOk (r : FaultRecord) : Prop :=
  match r.kind with
  | .unknownInstruction => ∃ op, r.opcode = some op ∧ r.info = .opcode op
  | .stackOverflow | .stackUnderflow => r.opcode ≠ none ∧ r.info = .nothing
  | .addressOutOfRange => ∃ a, 0xFFF < a ∧ r.info = .address a
  | .keyIndexOutOfRange => r.opcode ≠ none ∧ ∃ k : Byte, 15 < k.toNat ∧ r.info = .key k

/-- The invariant of the machine. -/
structure CoreInv (s : State) : Prop where
  /-- memory is in canonical form (log 10) -/
  canonical : Memory.wf s.mem
  /-- no cell lies outside 0x000..0xFFF (R32) -/
  inSpace : Memory.inSpace s.mem
  /-- PC is at most 0x1002 (R18) -/
  pcBound : s.pc.toNat ≤ 0x1002
  /-- I is at most 0xFFF under `LOADSTORE_I_MODE` = unchanged (R16) -/
  iBound : s.i.toNat ≤ 0xFFF
  /-- at most 16 return addresses (R19) -/
  depth : s.stack.length ≤ 16
  /-- every return address is at most 0x1000 (R18) -/
  returns : ∀ w ∈ s.stack, w.toNat ≤ 0x1000
  /-- a fault is precise: the latch's pc is PC, and its record is of its kind's form (R103, R107) -/
  precise : ∀ r, s.fault = some r → r.pc = s.pc ∧ recordOk r

end Sys2Proof.Machine
end

