-- ==== Sys2Proof/Certificates/Slice0/Obligations.lean ====
section
/-! DEFINITION. The statements for the provers, from the numbered rules of spec/. `exec i s` is the whole step that
executes `i` from the state `s` before it. -/

open Sys2Proof Sys2Proof.Machine

/-! ### Encoding and decoding -/

/-- Decoding the word of a well-formed instruction gives that instruction, with every operand at every value (R49 to R52;
the assignment of the patterns is the spec's decision D26). -/
def Obligations.DecodeReadsEncodedInstruction : Prop :=
  ∀ i : Instr, i.wellFormed = true → decode (encode i) = .form i

/-- A word has one meaning: the instruction decoded from it is well-formed and is encoded as that word (R48, R52, D26). -/
def Obligations.EncodeGivesDecodedWord : Prop :=
  ∀ (op : Word) (i : Instr), decode op = .form i → encode i = op ∧ i.wellFormed = true

/-- Exactly the words R53 lists are illegal, for both values of `STRICT_LOW_NIBBLE` (the spec's decision D2). -/
def Obligations.IllegalWordsAreThoseListed : Prop :=
  ∀ (strict : Bool) (op : Word), decodeWith strict op = .unknown ↔
    (strict = true ∧ (op.toNat / 0x1000 = 5 ∨ op.toNat / 0x1000 = 9) ∧ op.toNat % 0x10 ≠ 0) ∨
    (op.toNat / 0x1000 = 8 ∧ op.toNat % 0x10 ∈ [0x8, 0x9, 0xA, 0xB, 0xC, 0xD, 0xF]) ∨
    (op.toNat / 0x1000 = 0xE ∧ op.toNat % 0x100 ∉ [0x9E, 0xA1]) ∨
    (op.toNat / 0x1000 = 0xF ∧ op.toNat % 0x100 ∉ [0x07, 0x0A, 0x15, 0x18, 0x1E, 0x29, 0x33, 0x55, 0x65])

/-- A few words of each family, written from R50 and R51 and used in spec/95_test_vectors.md, decode as they read. -/
def Obligations.SpecWordsDecode : Prop :=
  decode 0x0123 = .form (.sys 0x123) ∧ decode 0x00E0 = .form .cls ∧ decode 0x2210 = .form (.call 0x210) ∧
  decode 0x3F01 = .form (.seImm 0xF 0x01) ∧ decode 0x6A02 = .form (.ldImm 0xA 0x02) ∧
  decode 0x8014 = .form (.addReg 0 1) ∧ decode 0xF21E = .form (.addI 2) ∧ decode 0xF155 = .form (.ldMemVx 1) ∧
  decode 0xD125 = .form (.drw 1 2 5) ∧ decode 0xE09E = .form (.skp 0) ∧ decode 0xF50A = .form (.ldVxK 5) ∧
  decode 0x5121 = .unknown ∧ decode 0xF056 = .unknown

/-! ### The step -/

/-- A step of a running core executes the instruction the two bytes at PC decode to, high byte first. `exec` includes the
advance of PC past the word, and nothing else stands around it (R36, R56). -/
def Obligations.StepRunsDecodedInstruction : Prop :=
  ∀ (i : Instr) (s : State), AboutToRun i s → step s = exec i s

/-- A word placed where the next step fetches runs as the next step, from every state: the model's stand-in for the
host's `load` of a program (log 21). -/
def Obligations.PlacedWordRunsNext : Prop :=
  ∀ (s : State) (w : Nat) (i : Instr), decodeTableWord 16 w = some i →
    step (s.withFetchWord 16 w) = exec i (s.withFetchWord 16 w)

/-- A fetch at PC > 0xFFE faults with the lowest address above 0xFFF (R34, R56; D10, D27 and the record D22 are the
spec's decisions; that the fault is a next state is log 1). -/
def Obligations.FetchOutsideMemoryFaults : Prop :=
  ∀ s : State, s.fault = none → 0xFFE < s.pc.toNat →
    ∃ t, step s = .next t ∧ Latches s t .addressOutOfRange none (.address (max s.pc.toNat 0x1000))

/-- A step that fetches an illegal word faults with that word (R56; the record is the spec's decision D22, and that
the fault is a next state is log 1). -/
def Obligations.IllegalWordFaults : Prop :=
  ∀ s : State, Fetchable s → decode (wordAt s s.pc.toNat) = .unknown →
    ∃ t, step s = .next t ∧
      Latches s t .unknownInstruction (some (wordAt s s.pc.toNat)) (.opcode (wordAt s s.pc.toNat))

/-- A latched core's step changes nothing and returns the latched kind (R105, the spec's decision D12; log 1). -/
def Obligations.LatchedCoreExecutesNothing : Prop :=
  ∀ (s : State) (r : FaultRecord), s.fault = some r →
    step s = .fault (.latched r.kind) ∧ respond .step s = .next (s, .fault r.kind)

/-- Every step of a running core ends, and the call returns `Ok` if no fault was raised and else the kind latched
(R56; log 1). -/
def Obligations.RunningStepReturnsOkOrFault : Prop :=
  ∀ s : State, s.fault = none → ∃ t, step s = .next t ∧
    ((t.fault = none ∧ respond .step s = .next (t, .ok)) ∨
      ∃ r, t.fault = some r ∧ respond .step s = .next (t, .fault r.kind))

/-- Every instruction may execute at every time: it ends in a next state from every state (R111, which the spec derives). -/
def Obligations.EveryInstructionEndsInNextState : Prop :=
  ∀ (i : Instr) (s : State), ∃ t, exec i s = .next t

/-! ### Faults -/

/-- A fault discards every write of the step: all parts but the latch read as before it, and the record names the
instruction (R103, R104; the spec's decisions D11 and D22). -/
def Obligations.FaultDiscardsEveryWrite : Prop :=
  ∀ (i : Instr) (s t : State) (r : FaultRecord), s.fault = none → exec i s = .next t → t.fault = some r →
    r.pc = s.pc ∧ r.opcode = some (encode i) ∧ recordOk r ∧ UnchangedBut [.fault] s t

/-- Each instruction raises at most one kind of fault, the one R106 names (the spec's decision D27). -/
def Obligations.EachInstructionRaisesItsOwnKind : Prop :=
  ∀ (i : Instr) (s t : State) (r : FaultRecord), s.fault = none → exec i s = .next t → t.fault = some r →
    faultKindOf i = some r.kind

/-- Only a successful load clears the latch, and no other call touches it once set (R105, R108; the spec's decision D12). -/
def Obligations.OnlyLoadClearsTheLatch : Prop :=
  ∀ (c : Call) (s t : State) (reply : Reply) (r : FaultRecord), s.fault = some r → respond c s = .next (t, reply) →
    t.fault = some r ∨ (∃ rom, c = .load rom ∧ reply = .ok ∧ t.fault = none)

/-! ### Whole-machine rules -/

/-- Which instructions write each of the eleven parts of the state. The keypad none; the framebuffer CLS and DRW; memory
Fx33 and Fx55; the stack CALL and RET; DT Fx15; ST Fx18; I Annn, Fx1E and Fx29; a general register the instructions that
name it as destination or set the flag; the latch the raised fault, of the instruction's own kind; PC every step that does
not fault, and otherwise than by + 2 only jumps, CALL, RET, skips and the key wait (C4, C7; R13, R15 to R17, R19, R22, R23,
R25, R26, R28, R38, R57). The last clause is about `draws`, the model's own field and no state of the spec (log 8, a DESIGN
CHOICE): only Cxkk and Fx0A advance it. -/
def Obligations.EachPartHasItsWriters : Prop :=
  ∀ (i : Instr) (s t : State), exec i s = .next t →
    Same .key s t ∧
    (Same .fb s t ∨ i = .cls ∨ ∃ x y n, i = .drw x y n) ∧
    (Same .mem s t ∨ ∃ x, i = .ldB x ∨ i = .ldMemVx x) ∧
    (Same .stack s t ∨ i = .ret ∨ ∃ nnn, i = .call nnn) ∧
    (Same .dt s t ∨ ∃ x, i = .ldDtVx x) ∧
    (Same .st s t ∨ ∃ x, i = .ldStVx x) ∧
    (Same .i s t ∨ ∃ nnn x, i = .ldI nnn ∨ i = .addI x ∨ i = .ldF x) ∧
    (∀ r, t.readV r = s.readV r ∨ writesReg i r = true) ∧
    (Same .fault s t ∨ ∃ r, t.fault = some r ∧ faultKindOf i = some r.kind) ∧
    (t.pc = s.pc + 2 ∨ writesPc i = true ∨ (t.pc = s.pc ∧ ∃ r, t.fault = some r ∧ faultKindOf i = some r.kind)) ∧
    (Same .draws s t ∨ ∃ x kk, i = .rnd x kk ∨ i = .ldVxK x)

/-- An instruction that is no jump, call, return, skip or key wait leaves PC at ipc + 2 when it raises no fault (R57,
which the spec derives). -/
def Obligations.OtherInstructionsAdvancePcByTwo : Prop :=
  ∀ (i : Instr) (s t : State), writesPc i = false → s.fault = none → exec i s = .next t → t.fault = none →
    t.pc = s.pc + 2

/-- No instruction reads ST: two runs of a step that differ in ST alone end in states that differ in ST alone (R23). -/
def Obligations.NoInstructionReadsSoundTimer : Prop :=
  ∀ (s t : State) (b : Byte), step s = .next t → ∃ u, step (s.setSt b) = .next u ∧ UnchangedBut [.st] t u

/-! ### Invariants and memory -/

/-- The core meets the invariant when it is created (R30). -/
def Obligations.ResetMeetsInvariant : Prop := CoreInv State.reset

/-- Every step keeps the invariant: canonical memory in 0x000..0xFFF (log 10), PC at most 0x1002, I at most 0xFFF, at
most 16 return addresses each at most 0x1000, and a precise fault record (R16, R18, R19, R103, R107). -/
def Obligations.StepKeepsInvariant : Prop :=
  ∀ s t : State, CoreInv s → step s = .next t → CoreInv t

/-- Every schedule of host calls, steps among them, keeps the invariant (R44, R117). -/
def Obligations.EveryScheduleKeepsInvariant : Prop :=
  ∀ (cs : List Call) (s t : State) (replies : List Reply), CoreInv s → respondAll cs s = .next (t, replies) → CoreInv t

/-- Canonical memories that read alike at every address are equal data (log 10). -/
def Obligations.CanonicalMemoryIsItsReads : Prop :=
  ∀ m m' : List Host.Cell, Memory.wf m → Memory.wf m' → (∀ a, Memory.read m a = Memory.read m' a) → m = m'

/-- The values at creation: memory zero but for the font's 80 bytes, PC = 0x200 (from the source), and the rest as R30's
table says (the spec's decisions D17 and D19). -/
def Obligations.CreationValues : Prop :=
  (∀ a, Memory.read State.reset.mem a =
    if 0x050 ≤ a ∧ a < 0x0A0 then Params.fontBytes.getD (a - 0x050) 0 else 0) ∧
  Params.fontBytes.length = 80 ∧ State.reset.pc = 0x200 ∧ (∀ r, State.reset.readV r = 0) ∧ State.reset.i = 0 ∧
  State.reset.stack = [] ∧ State.reset.dt = 0 ∧ State.reset.st = 0 ∧
  (∀ px py, pixel State.reset.fb px py = false) ∧ (∀ k, State.reset.keyDown k = false) ∧ State.reset.fault = none

/-- A store is seen by every later fetch (R46, which the spec derives). After Fx55 or Fx33, a core with that memory
fetches, wherever PC stands, the stored bytes where the instruction stored (V0..Vx, or the three digits of Vx, from I on) and
the old bytes elsewhere: it runs the word they make, or faults on it if the word is illegal. -/
def Obligations.StoreIsSeenByNextFetch : Prop :=
  ∀ (x : RegNum) (s t u : State) (j : Instr) (bs : List Byte),
    (j = .ldMemVx x ∧ bs = s.readVsTo x) ∨ (j = .ldB x ∧ bs = decimalDigits (s.readV x)) →
    s.fault = none → exec j s = .next t → t.fault = none → u.mem = t.mem → Fetchable u →
    wordAt u u.pc.toNat = wordAfterStore s bs u.pc.toNat ∧
    (∀ i, decode (wordAfterStore s bs u.pc.toNat) = .form i → step u = exec i u) ∧
    (decode (wordAfterStore s bs u.pc.toNat) = .unknown → ∃ v, step u = .next v ∧
      Latches u v .unknownInstruction (some (wordAfterStore s bs u.pc.toNat))
        (.opcode (wordAfterStore s bs u.pc.toNat)))

/-! ### Control transfer -/

/-- SYS faults with its word, from every state (R61; the spec's decision D1; log 11), and under `SYS_POLICY` = nop it
only advances PC. -/
def Obligations.SysRaisesUnknownInstruction : Prop :=
  ∀ (nnn : Addr12) (s : State),
    (∃ t, exec (.sys nnn) s = .next t ∧
      Latches s t .unknownInstruction (some (formatA 0x0 nnn)) (.opcode (formatA 0x0 nnn))) ∧
    (∃ t, sysEffect .nop nnn s = .ok t ∧ t.pc = s.pc + 2 ∧ UnchangedBut [.pc] s t)

/-- 00EE pops the return address into PC, and with an empty stack raises `StackUnderflow` (R62, R21). -/
def Obligations.RetPopsReturnAddress : Prop :=
  decode 0x00EE = .form .ret ∧
  ∀ s : State,
    (∀ ws w, s.stack = ws ++ [w] → ∃ t, exec .ret s = .next t ∧ t.pc = w ∧ t.stack = ws ∧ UnchangedBut [.pc, .stack] s t) ∧
    (s.stack = [] → ∃ t r, exec .ret s = .next t ∧ t.fault = some r ∧ r.kind = .stackUnderflow)

/-- 1nnn sets PC to nnn and changes nothing else (R63). -/
def Obligations.JpSetsPc : Prop :=
  ∀ (nnn : Addr12) (s : State), decode (formatA 0x1 nnn) = .form (.jp nnn) ∧
    ∃ t, exec (.jp nnn) s = .next t ∧ t.pc.toNat = nnn.toNat ∧ UnchangedBut [.pc] s t

/-- 2nnn pushes ipc + 2 (an address the spec derives, R57) and sets PC to nnn; with 16 entries it faults and pushes
nothing (R20, R64). -/
def Obligations.CallPushesReturnAddress : Prop :=
  ∀ (nnn : Addr12) (s : State), decode (formatA 0x2 nnn) = .form (.call nnn) ∧
    (s.stack.length < 16 → ∃ t, exec (.call nnn) s = .next t ∧ t.pc.toNat = nnn.toNat ∧
      t.stack = s.stack ++ [s.pc + 2] ∧ UnchangedBut [.pc, .stack] s t) ∧
    (16 ≤ s.stack.length → ∃ t, exec (.call nnn) s = .next t ∧
      Latches s t .stackOverflow (some (formatA 0x2 nnn)) .nothing)

/-- A return with the stack a call left goes to the word after the call and restores the stack (R62, R64). -/
def Obligations.RetUndoesCall : Prop :=
  ∀ (nnn : Addr12) (s t u : State), s.stack.length < 16 → exec (.call nnn) s = .next t → u.stack = t.stack →
    ∃ v, exec .ret u = .next v ∧ v.pc = s.pc + 2 ∧ v.stack = s.stack ∧ UnchangedBut [.pc, .stack] u v

/-- 3xkk skips the next word if Vx = kk, 4xkk if Vx != kk; nothing else changes (R66, R67). -/
def Obligations.SkipsOnImmediate : Prop :=
  ∀ (x : RegNum) (kk : Byte) (s : State),
    decode (formatXK 0x3 x kk) = .form (.seImm x kk) ∧ decode (formatXK 0x4 x kk) = .form (.sneImm x kk) ∧
    (∃ t, exec (.seImm x kk) s = .next t ∧
      t.pc = (if (s.readV x).toNat = kk.toNat then s.pc + 4 else s.pc + 2) ∧ UnchangedBut [.pc] s t) ∧
    (∃ t, exec (.sneImm x kk) s = .next t ∧
      t.pc = (if (s.readV x).toNat = kk.toNat then s.pc + 2 else s.pc + 4) ∧ UnchangedBut [.pc] s t)

/-- 5xy0 skips if Vx = Vy, 9xy0 if Vx != Vy; a low nibble other than 0 is illegal, and is accepted only under
`STRICT_LOW_NIBBLE` = false (R68, R69; the patterns and the switch are the spec's decisions D26 and D2). -/
def Obligations.SkipsOnRegister : Prop :=
  ∀ (x y : RegNum) (s : State),
    decode (formatXYN 0x5 x y 0) = .form (.seReg x y) ∧ decode (formatXYN 0x9 x y 0) = .form (.sneReg x y) ∧
    (∀ n : Nibble, n ≠ 0 → decode (formatXYN 0x5 x y n) = .unknown ∧ decode (formatXYN 0x9 x y n) = .unknown) ∧
    (∀ n : Nibble, decodeWith false (formatXYN 0x5 x y n) = .form (.seReg x y) ∧
      decodeWith false (formatXYN 0x9 x y n) = .form (.sneReg x y)) ∧
    (∃ t, exec (.seReg x y) s = .next t ∧
      t.pc = (if (s.readV x).toNat = (s.readV y).toNat then s.pc + 4 else s.pc + 2) ∧ UnchangedBut [.pc] s t) ∧
    (∃ t, exec (.sneReg x y) s = .next t ∧
      t.pc = (if (s.readV x).toNat = (s.readV y).toNat then s.pc + 2 else s.pc + 4) ∧ UnchangedBut [.pc] s t)

/-- Bnnn sets PC to nnn + V0, and above 0xFFF faults with the sum (R65; the spec's decision D7; log 15). -/
def Obligations.JpV0AddsRegisterZero : Prop :=
  ∀ (nnn : Addr12) (s : State), decode (formatA 0xB nnn) = .form (.jpV0 nnn) ∧
    (nnn.toNat + (s.readV 0).toNat ≤ 0xFFF → ∃ t, exec (.jpV0 nnn) s = .next t ∧
      t.pc.toNat = nnn.toNat + (s.readV 0).toNat ∧ UnchangedBut [.pc] s t) ∧
    (0xFFF < nnn.toNat + (s.readV 0).toNat → ∃ t, exec (.jpV0 nnn) s = .next t ∧
      Latches s t .addressOutOfRange (some (formatA 0xB nnn)) (.address (nnn.toNat + (s.readV 0).toNat)))

/-- A parked core stays as it is: the step at a self-jump leads back to the same state (R63; R126 is the spec's
decision D29). -/
def Obligations.ParkedCoreStaysParked : Prop :=
  ∀ s : State, Parked s → step s = .next s

/-! ### Register arithmetic and logic -/

/-- 6xkk writes kk to Vx; 7xkk adds kk modulo 256 and changes no flag, also when x is not F and the sum overflows
(R72, R73). -/
def Obligations.ImmediateLoadAndAdd : Prop :=
  ∀ (x : RegNum) (kk : Byte) (s : State),
    decode (formatXK 0x6 x kk) = .form (.ldImm x kk) ∧ decode (formatXK 0x7 x kk) = .form (.addImm x kk) ∧
    (∃ t, exec (.ldImm x kk) s = .next t ∧ (∀ r, t.readV r = if r = x then kk else s.readV r) ∧
      t.pc = s.pc + 2 ∧ UnchangedBut [.v, .pc] s t) ∧
    (∃ t, exec (.addImm x kk) s = .next t ∧
      (∀ r, (t.readV r).toNat = if r = x then ((s.readV x).toNat + kk.toNat) % 256 else (s.readV r).toNat) ∧
      t.pc = s.pc + 2 ∧ UnchangedBut [.v, .pc] s t)

/-- 8xy0 copies Vy to Vx and changes no flag (R74; the pattern is the spec's decision D26). -/
def Obligations.RegisterCopy : Prop :=
  ∀ (x y : RegNum) (s : State), decode (formatXYN 0x8 x y 0x0) = .form (.ldReg x y) ∧
    ∃ t, exec (.ldReg x y) s = .next t ∧ (∀ r, t.readV r = if r = x then s.readV y else s.readV r) ∧
      t.pc = s.pc + 2 ∧ UnchangedBut [.v, .pc] s t

/-- 8xy1, 8xy2, 8xy3 write the bitwise OR, AND, XOR, bit by bit, and leave VF alone unless x = F (R75 to R77; the spec's
decisions D3 and D26; log 13); the shared write resets VF exactly under `LOGIC_RESETS_VF` = true. -/
def Obligations.LogicOperations : Prop :=
  ∀ (x y : RegNum) (s : State),
    decode (formatXYN 0x8 x y 0x1) = .form (.orReg x y) ∧ decode (formatXYN 0x8 x y 0x2) = .form (.andReg x y) ∧
    decode (formatXYN 0x8 x y 0x3) = .form (.xorReg x y) ∧
    (∃ t, exec (.orReg x y) s = .next t ∧
      (∀ k, (t.readV x).getLsbD k = ((s.readV x).getLsbD k || (s.readV y).getLsbD k)) ∧
      (∀ r, r ≠ x → t.readV r = s.readV r) ∧ t.pc = s.pc + 2 ∧ UnchangedBut [.v, .pc] s t) ∧
    (∃ t, exec (.andReg x y) s = .next t ∧
      (∀ k, (t.readV x).getLsbD k = ((s.readV x).getLsbD k && (s.readV y).getLsbD k)) ∧
      (∀ r, r ≠ x → t.readV r = s.readV r) ∧ t.pc = s.pc + 2 ∧ UnchangedBut [.v, .pc] s t) ∧
    (∃ t, exec (.xorReg x y) s = .next t ∧
      (∀ k, (t.readV x).getLsbD k = ((s.readV x).getLsbD k ^^ (s.readV y).getLsbD k)) ∧
      (∀ r, r ≠ x → t.readV r = s.readV r) ∧ t.pc = s.pc + 2 ∧ UnchangedBut [.v, .pc] s t) ∧
    (∀ (resets : Bool) (b : Byte) (r : RegNum), (State.writeLogic resets s x b).readV r =
      if resets = true ∧ r = vf then 0 else if r = x then b else s.readV r)

/-- 8xy4, 8xy5, 8xy7: the sum and the differences modulo 256, and VF the carry or the no-borrow, written last, so that
with x = F it holds the flag (R78, R79, R81; the spec's decisions D5, D6 and D26). -/
def Obligations.AddAndSubtractWithFlag : Prop :=
  ∀ (x y : RegNum) (s : State) (a b : Nat), a = (s.readV x).toNat → b = (s.readV y).toNat →
    decode (formatXYN 0x8 x y 0x4) = .form (.addReg x y) ∧ decode (formatXYN 0x8 x y 0x5) = .form (.sub x y) ∧
    decode (formatXYN 0x8 x y 0x7) = .form (.subn x y) ∧
    (∃ t, exec (.addReg x y) s = .next t ∧ t.readV vf = (if 255 < a + b then 1 else 0) ∧
      (∀ r, r ≠ vf → (t.readV r).toNat = if r = x then (a + b) % 256 else (s.readV r).toNat) ∧
      t.pc = s.pc + 2 ∧ UnchangedBut [.v, .pc] s t) ∧
    (∃ t, exec (.sub x y) s = .next t ∧ t.readV vf = (if b ≤ a then 1 else 0) ∧
      (∀ r, r ≠ vf → (t.readV r).toNat = if r = x then (a + 256 - b) % 256 else (s.readV r).toNat) ∧
      t.pc = s.pc + 2 ∧ UnchangedBut [.v, .pc] s t) ∧
    (∃ t, exec (.subn x y) s = .next t ∧ t.readV vf = (if a ≤ b then 1 else 0) ∧
      (∀ r, r ≠ vf → (t.readV r).toNat = if r = x then (b + 256 - a) % 256 else (s.readV r).toNat) ∧
      t.pc = s.pc + 2 ∧ UnchangedBut [.v, .pc] s t)

/-- 8xy6 and 8xyE shift Vx by one and VF takes the bit shifted out, written last; under `SHIFT_SOURCE` = VY the source is
Vy instead (R80, R82; the spec's decisions D4, D6 and D26; log 14). -/
def Obligations.ShiftsWithFlag : Prop :=
  ∀ (x y : RegNum) (s : State),
    decode (formatXYN 0x8 x y 0x6) = .form (.shr x y) ∧ decode (formatXYN 0x8 x y 0xE) = .form (.shl x y) ∧
    (exec (.shr x y) s = .next (shiftRight .vx x y s)) ∧ (exec (.shl x y) s = .next (shiftLeft .vx x y s)) ∧
    ∀ (source : ShiftSource) (c : Nat), c = (s.readV (if source = .vx then x else y)).toNat →
      (∃ t, shiftRight source x y s = t ∧ (t.readV vf).toNat = c % 2 ∧
        (∀ r, r ≠ vf → (t.readV r).toNat = if r = x then c / 2 else (s.readV r).toNat) ∧
        t.pc = s.pc + 2 ∧ UnchangedBut [.v, .pc] s t) ∧
      (∃ t, shiftLeft source x y s = t ∧ (t.readV vf).toNat = c / 128 ∧
        (∀ r, r ≠ vf → (t.readV r).toNat = if r = x then 2 * c % 256 else (s.readV r).toNat) ∧
        t.pc = s.pc + 2 ∧ UnchangedBut [.v, .pc] s t)

/-- Cxkk writes the next byte of the random source, masked by kk; the byte is a free value, so this says nothing of the
register but that its bits outside kk are 0 (R27, R83; the spec's decisions D21 and D26; log 3). -/
def Obligations.RandomByteIsMasked : Prop :=
  ∀ (x : RegNum) (kk : Byte) (s : State), decode (formatXK 0xC x kk) = .form (.rnd x kk) ∧
    ∃ t, exec (.rnd x kk) s = .next t ∧
      (∀ k, (t.readV x).getLsbD k = ((Config.drawU8 s.draws).getLsbD k && kk.getLsbD k)) ∧
      (∀ r, r ≠ x → t.readV r = s.readV r) ∧ t.draws = s.draws + 1 ∧
      t.pc = s.pc + 2 ∧ UnchangedBut [.v, .pc, .draws] s t

/-- The laws of 8-bit arithmetic: sums and differences wrap modulo 256, VF is 1 iff the sum of 8xy4 overflows 255 and iff
8xy5 has no borrow, i.e. Vx >= Vy, and no instruction of the family can fault (R71). -/
def Obligations.ArithmeticLaws : Prop :=
  (∀ (x y : RegNum) (s t : State), exec (.addReg x y) s = .next t →
    (t.readV vf = 1 ↔ 255 < (s.readV x).toNat + (s.readV y).toNat) ∧ (t.readV vf = 1 ∨ t.readV vf = 0) ∧
    (x ≠ vf → (t.readV x).toNat = ((s.readV x).toNat + (s.readV y).toNat) % 256)) ∧
  (∀ (x y : RegNum) (s t : State), exec (.sub x y) s = .next t →
    (t.readV vf = 1 ↔ (s.readV y).toNat ≤ (s.readV x).toNat) ∧ (t.readV vf = 1 ∨ t.readV vf = 0) ∧
    (x ≠ vf → ((t.readV x).toNat : Int) = ((s.readV x).toNat - (s.readV y).toNat : Int) % 256)) ∧
  (∀ (x : RegNum) (kk : Byte) (s t : State), exec (.addImm x kk) s = .next t →
    (t.readV x).toNat = ((s.readV x).toNat + kk.toNat) % 256) ∧
  (∀ (i : Instr) (s : State), isAlu i = true → ∃ t, exec i s = .next t ∧ t.fault = s.fault ∧ t.pc = s.pc + 2 ∧
    UnchangedBut [.v, .pc, .draws] s t)

/-! ### Index register and memory transfers -/

/-- Annn sets I to nnn and changes nothing else (R84). -/
def Obligations.LdISetsIndex : Prop :=
  ∀ (nnn : Addr12) (s : State), decode (formatA 0xA nnn) = .form (.ldI nnn) ∧
    ∃ t, exec (.ldI nnn) s = .next t ∧ t.i.toNat = nnn.toNat ∧ t.pc = s.pc + 2 ∧ UnchangedBut [.i, .pc] s t

/-- Fx1E adds Vx to I and writes no flag; a sum above 0xFFF faults with the sum and leaves I (R85; the spec's decisions
D8 and D26; log 22). -/
def Obligations.AddIChecksRange : Prop :=
  ∀ (x : RegNum) (s : State), decode (formatXK 0xF x 0x1E) = .form (.addI x) ∧
    (s.i.toNat + (s.readV x).toNat ≤ 0xFFF → ∃ t, exec (.addI x) s = .next t ∧
      t.i.toNat = s.i.toNat + (s.readV x).toNat ∧ t.pc = s.pc + 2 ∧ UnchangedBut [.i, .pc] s t) ∧
    (0xFFF < s.i.toNat + (s.readV x).toNat → ∃ t, exec (.addI x) s = .next t ∧
      Latches s t .addressOutOfRange (some (formatXK 0xF x 0x1E)) (.address (s.i.toNat + (s.readV x).toNat)))

/-- Fx29 sets I to the glyph of the low nibble of Vx, five bytes a glyph from 0x050 on (R86; the spec's decision D17;
log 9). -/
def Obligations.LdFAddressesGlyph : Prop :=
  ∀ (x : RegNum) (s : State), decode (formatXK 0xF x 0x29) = .form (.ldF x) ∧
    ∃ t, exec (.ldF x) s = .next t ∧ t.i.toNat = 0x050 + 5 * ((s.readV x).toNat % 16) ∧
      t.pc = s.pc + 2 ∧ UnchangedBut [.i, .pc] s t

/-- Fx33 writes the hundreds, tens and ones of Vx at I, I + 1, I + 2 and nothing else; with I + 2 above 0xFFF it faults
and writes nothing (R87; the spec's decisions D11 and D18). -/
def Obligations.LdBWritesDecimalDigits : Prop :=
  ∀ (x : RegNum) (s : State), decode (formatXK 0xF x 0x33) = .form (.ldB x) ∧
    (s.i.toNat + 2 ≤ 0xFFF → ∃ t, exec (.ldB x) s = .next t ∧
      (Memory.read t.mem s.i.toNat).toNat = (s.readV x).toNat / 100 ∧
      (Memory.read t.mem (s.i.toNat + 1)).toNat = (s.readV x).toNat / 10 % 10 ∧
      (Memory.read t.mem (s.i.toNat + 2)).toNat = (s.readV x).toNat % 10 ∧
      (∀ a, a < s.i.toNat ∨ s.i.toNat + 2 < a → Memory.read t.mem a = Memory.read s.mem a) ∧
      t.pc = s.pc + 2 ∧ UnchangedBut [.mem, .pc] s t) ∧
    (0xFFF < s.i.toNat + 2 → ∃ t, exec (.ldB x) s = .next t ∧
      Latches s t .addressOutOfRange (some (formatXK 0xF x 0x33)) (.address (max s.i.toNat 0x1000)))

/-- Fx55 writes V0..Vx at I, I + 1, ... and nothing else, I included; under `LOADSTORE_I_MODE` = increment only I
differs; beyond 0xFFF it faults and writes nothing (R88; the spec's decisions D9 and D11; log 16). -/
def Obligations.LdMemVxStoresRegisters : Prop :=
  ∀ (x : RegNum) (s : State), decode (formatXK 0xF x 0x55) = .form (.ldMemVx x) ∧
    (s.i.toNat + x.val ≤ 0xFFF → ∃ t u, exec (.ldMemVx x) s = .next t ∧
      (∀ r, r ≤ x → Memory.read t.mem (s.i.toNat + r.val) = s.readV r) ∧
      (∀ a, a < s.i.toNat ∨ s.i.toNat + x.val < a → Memory.read t.mem a = Memory.read s.mem a) ∧
      t.pc = s.pc + 2 ∧ UnchangedBut [.mem, .pc] s t ∧
      storeRegisters .increment x s = .ok u ∧ u.i.toNat = s.i.toNat + x.val + 1 ∧ UnchangedBut [.i] t u) ∧
    (0xFFF < s.i.toNat + x.val → ∃ t, exec (.ldMemVx x) s = .next t ∧
      Latches s t .addressOutOfRange (some (formatXK 0xF x 0x55)) (.address (max s.i.toNat 0x1000)))

/-- Fx65 loads V0..Vx from I, I + 1, ... and leaves the registers above x, memory and I; under `LOADSTORE_I_MODE` =
increment only I differs; beyond 0xFFF it faults and loads nothing (R89; the spec's decisions D9 and D11; log 16). -/
def Obligations.LdVxMemLoadsRegisters : Prop :=
  ∀ (x : RegNum) (s : State), decode (formatXK 0xF x 0x65) = .form (.ldVxMem x) ∧
    (s.i.toNat + x.val ≤ 0xFFF → ∃ t u, exec (.ldVxMem x) s = .next t ∧
      (∀ r, t.readV r = if r ≤ x then Memory.read s.mem (s.i.toNat + r.val) else s.readV r) ∧
      t.pc = s.pc + 2 ∧ UnchangedBut [.v, .pc] s t ∧
      loadRegisters .increment x s = .ok u ∧ u.i.toNat = s.i.toNat + x.val + 1 ∧ UnchangedBut [.i] t u) ∧
    (0xFFF < s.i.toNat + x.val → ∃ t, exec (.ldVxMem x) s = .next t ∧
      Latches s t .addressOutOfRange (some (formatXK 0xF x 0x65)) (.address (max s.i.toNat 0x1000)))

/-- Loading what was stored gives it back: after Fx55, an Fx65 at the same I over the same memory sets V0..Vx to what
they held at the store (R88, R89; the spec's decisions D9 and D11). -/
def Obligations.LoadGivesBackWhatWasStored : Prop :=
  ∀ (x : RegNum) (s t u : State), s.i.toNat + x.val ≤ 0xFFF → exec (.ldMemVx x) s = .next t → u.mem = t.mem → u.i = s.i →
    ∃ v, exec (.ldVxMem x) u = .next v ∧ (∀ r, v.readV r = if r ≤ x then s.readV r else u.readV r)

/-! ### Display -/

/-- 00E0 turns every pixel off and changes nothing else, VF included (R90). -/
def Obligations.ClsClearsFramebuffer : Prop :=
  decode 0x00E0 = .form .cls ∧
  ∀ s : State, ∃ t, exec .cls s = .next t ∧ (∀ px py, pixel t.fb px py = false) ∧
    t.pc = s.pc + 2 ∧ UnchangedBut [.fb, .pc] s t

/-- Dxyn inverts exactly the pixels its 1-bits land on, wrapping at the edges, and sets VF to the collision; under
`DRAW_EDGE` = clip the same holds without the wrap; a sprite byte above 0xFFF faults and draws nothing (R91 to R93; the
spec's decisions D6, D11, D15 and D16; log 18, log 26). -/
def Obligations.DrwInvertsCoveredPixels : Prop :=
  ∀ (x y : RegNum) (n : Nibble) (s : State), decode (formatXYN 0xD x y n) = .form (.drw x y n) ∧
    (n.toNat = 0 ∨ s.i.toNat + n.toNat - 1 ≤ 0xFFF →
      (∃ t, exec (.drw x y n) s = .next t ∧ DrawnFrom .wrap x y n.toNat s t) ∧
      (∃ t, drawSprite .clip x y n s = .ok t ∧ DrawnFrom .clip x y n.toNat s t)) ∧
    (0 < n.toNat ∧ 0xFFF < s.i.toNat + n.toNat - 1 → ∃ t, exec (.drw x y n) s = .next t ∧
      Latches s t .addressOutOfRange (some (formatXYN 0xD x y n)) (.address (max s.i.toNat 0x1000)))

/-- Drawing the same sprite at the same place twice restores the framebuffer, and the second draw sets VF = 1 iff some
pixel a 1-bit lands on was off before the first (R91 to R94, E3). R94 (b), which the spec derives, asks only that a 1-bit
lands on the screen: so it is where no covered pixel was on before, the last clause, and R91 to R93 decide the rest
(log 37). -/
def Obligations.DrawingTwiceRestoresFramebuffer : Prop :=
  ∀ (x y : RegNum) (n : Nibble) (s t u v : State), s.fault = none → exec (.drw x y n) s = .next t → t.fault = none →
    u.fb = t.fb → u.fault = none → u.mem = s.mem → u.i = s.i → u.readV x = s.readV x → u.readV y = s.readV y →
    exec (.drw x y n) u = .next v →
    Same .fb s v ∧ v.fault = none ∧
      (v.readV vf = 1 ↔ ∃ px py, SpriteCovers .wrap s x y n.toNat px py ∧ pixel s.fb px py = false) ∧
      ((∀ px py, SpriteCovers .wrap s x y n.toNat px py → pixel s.fb px py = false) →
        (v.readV vf = 1 ↔ ∃ px py, SpriteCovers .wrap s x y n.toNat px py))

/-! ### Timers and keypad -/

/-- Fx07 reads DT, Fx15 writes DT, Fx18 writes ST; each changes that register alone (R95 to R97; the patterns are the
spec's decision D26). -/
def Obligations.TimerTransfers : Prop :=
  ∀ (x : RegNum) (s : State),
    decode (formatXK 0xF x 0x07) = .form (.ldVxDt x) ∧ decode (formatXK 0xF x 0x15) = .form (.ldDtVx x) ∧
    decode (formatXK 0xF x 0x18) = .form (.ldStVx x) ∧
    (∃ t, exec (.ldVxDt x) s = .next t ∧ (∀ r, t.readV r = if r = x then s.dt else s.readV r) ∧
      t.pc = s.pc + 2 ∧ UnchangedBut [.v, .pc] s t) ∧
    (∃ t, exec (.ldDtVx x) s = .next t ∧ t.dt = s.readV x ∧ t.pc = s.pc + 2 ∧ UnchangedBut [.dt, .pc] s t) ∧
    (∃ t, exec (.ldStVx x) s = .next t ∧ t.st = s.readV x ∧ t.pc = s.pc + 2 ∧ UnchangedBut [.st, .pc] s t)

/-- Ex9E skips if the key in Vx is pressed, ExA1 if it is not; a Vx above 0xF faults with its value (R98, R99; the spec's
decision D13; log 17). -/
def Obligations.SkipsOnKey : Prop :=
  ∀ (x : RegNum) (s : State),
    decode (formatXK 0xE x 0x9E) = .form (.skp x) ∧ decode (formatXK 0xE x 0xA1) = .form (.sknp x) ∧
    (∀ k : RegNum, (s.readV x).toNat = k.val →
      (∃ t, exec (.skp x) s = .next t ∧ t.pc = (if s.keyDown k then s.pc + 4 else s.pc + 2) ∧ UnchangedBut [.pc] s t) ∧
      (∃ t, exec (.sknp x) s = .next t ∧ t.pc = (if s.keyDown k then s.pc + 2 else s.pc + 4) ∧
        UnchangedBut [.pc] s t)) ∧
    (0xF < (s.readV x).toNat →
      (∃ t, exec (.skp x) s = .next t ∧
        Latches s t .keyIndexOutOfRange (some (formatXK 0xE x 0x9E)) (.key (s.readV x))) ∧
      (∃ t, exec (.sknp x) s = .next t ∧
        Latches s t .keyIndexOutOfRange (some (formatXK 0xE x 0xA1)) (.key (s.readV x))))

/-- Fx0A with a key pressed stores the number of a pressed key, which one being a free value, and goes on; with none it
changes nothing and PC stays at ipc (R100; the spec's decision D14; log 4). -/
def Obligations.KeyWaitStoresPressedKey : Prop :=
  ∀ (x : RegNum) (s : State), decode (formatXK 0xF x 0x0A) = .form (.ldVxK x) ∧
    ((∃ k, s.keyDown k = true) → ∃ t k, exec (.ldVxK x) s = .next t ∧ s.keyDown k = true ∧
      (∀ r, (t.readV r).toNat = if r = x then k.val else (s.readV r).toNat) ∧
      t.pc = s.pc + 2 ∧ UnchangedBut [.v, .pc, .draws] s t) ∧
    ((∀ k, s.keyDown k = false) → ∃ t, exec (.ldVxK x) s = .next t ∧ UnchangedBut [] s t)

/-- While the core waits for a key, a step leaves the state as it is, PC at the Fx0A (R29, R100, E9; the level test is the
spec's decision D14). -/
def Obligations.WaitingCoreKeepsItsState : Prop :=
  ∀ (x : RegNum) (s : State), Waiting x s → step s = .next s

/-! ### The host's operations -/

/-- A tick decrements each timer that is not 0, independently, and changes nothing else (R112). -/
def Obligations.TickCountsTimersDown : Prop :=
  ∀ s : State, ∃ t, respond .tickTimers s = .next (t, .nothing) ∧ t.dt.toNat = s.dt.toNat - 1 ∧
    t.st.toNat = s.st.toNat - 1 ∧ UnchangedBut [.dt, .st] s t

/-- `set_key` writes one key, the last write wins, and nothing else changes (R114; no index above 15 is the spec's
decision D28; log 24). -/
def Obligations.SetKeyWritesOneKey : Prop :=
  ∀ (k : RegNum) (p : Bool) (s : State), ∃ t, respond (.setKey k p) s = .next (t, .nothing) ∧
    (∀ j, t.keyDown j = if j = k then p else s.keyDown j) ∧ UnchangedBut [.key] s t

/-- The two views change nothing: `framebuffer_view` returns FB, `is_sound_active` is true iff ST > 0 (R115, R116). -/
def Obligations.ViewsReadWithoutEffect : Prop :=
  ∀ s : State, respond .framebufferView s = .next (s, .frame s.fb) ∧
    ∃ b, respond .isSoundActive s = .next (s, .sound b) ∧ (b = true ↔ 0 < s.st.toNat)

/-- A ROM of at most 3584 bytes is copied to 0x200 on, a longer one is rejected with `RomTooLarge`, leaving every field
as it was (R122, R123). -/
def Obligations.LoadChecksLengthFirst : Prop :=
  ∀ (rom : List Byte) (s : State),
    (rom.length ≤ 3584 → ∃ t, respond (.load rom) s = .next (t, .ok) ∧
      ∀ k (h : k < rom.length), Memory.read t.mem (0x200 + k) = rom[k]) ∧
    (3585 ≤ rom.length → respond (.load rom) s = .next (s, .romTooLarge))

/-- What a successful load does to each part, for every value of the two OPEN parameters, and that this hardware's load is
one of these (R124; the spec's decision D20; log 5, log 6). -/
def Obligations.LoadReinitialisesCore : Prop :=
  ∀ (rom : List Byte) (s : State), rom.length ≤ 3584 →
    (∃ t, respond (.load rom) s = .next (t, .ok) ∧ s.loadWith Config.loadClearsI Config.loadResidue rom = .ok t) ∧
    ∀ (clearsI : Bool) (residue : LoadResidue), ∃ t, s.loadWith clearsI residue rom = .ok t ∧
      (∀ a, a < 0x200 → Memory.read t.mem a = Memory.read s.mem a) ∧
      (∀ k (h : k < rom.length), Memory.read t.mem (0x200 + k) = rom[k]) ∧
      (∀ a, 0x200 + rom.length ≤ a → a ≤ 0xFFF →
        Memory.read t.mem a = if residue = .zero then 0 else Memory.read s.mem a) ∧
      t.pc = 0x200 ∧ (∀ r, t.readV r = 0) ∧ t.stack = [] ∧ t.dt = 0 ∧ t.st = 0 ∧
      t.i = (if clearsI then 0 else s.i) ∧ t.fault = none ∧
      UnchangedBut [.mem, .pc, .v, .stack, .dt, .st, .i, .fault] s t
end

