-- ==== Sys2Proof/Laws/Memory.lean ====
section
/-! SUPPORT. The laws of memory: what a read gives after a write, and that every memory operation keeps the canonical
form and the address space. -/

namespace Sys2Proof.Machine

theorem Memory.read_erase (m : List Host.Cell) (a a' : Nat) :
    Memory.read (Memory.erase m a) a' = if a' = a then creationByte a else Memory.read m a' := by
  induction m with
  | nil => simp only [Memory.erase, List.filter_nil, Memory.read]; split <;> simp_all
  | cons c m ih =>
    obtain ⟨k, b⟩ := c
    by_cases hk : k = a
    · subst hk
      have he : Memory.erase ((k, b) :: m) k = Memory.erase m k := by simp [Memory.erase]
      rw [he, ih]
      by_cases h : a' = k <;> simp [Memory.read, h]
    · have he : Memory.erase ((k, b) :: m) a = (k, b) :: Memory.erase m a := by simp [Memory.erase, hk]
      rw [he]
      simp only [Memory.read, ih]
      by_cases h : a' = k
      · subst h; simp [hk]
      · simp [h]

theorem Memory.read_insert (m : List Host.Cell) (a a' : Nat) (b : Byte) (hm : ∀ c ∈ m, c.1 ≠ a) :
    Memory.read (Memory.insert a b m) a' = if a' = a then b else Memory.read m a' := by
  induction m with
  | nil => simp [Memory.insert, Memory.read]
  | cons c m ih =>
    obtain ⟨k, d⟩ := c
    have hk : k ≠ a := hm (k, d) (by simp)
    have ih := ih (fun c hc => hm c (by simp [hc]))
    by_cases hlt : a < k
    · simp [Memory.insert, hlt, Memory.read]
    · simp only [Memory.insert, hlt, if_false, Memory.read, ih]
      by_cases h : a' = k
      · subst h; simp [hk]
      · simp [h]

theorem Memory.ne_of_mem_erase {m : List Host.Cell} {a : Nat} {c : Host.Cell} (h : c ∈ Memory.erase m a) : c.1 ≠ a := by
  simp only [Memory.erase, List.mem_filter, bne_iff_ne] at h
  exact h.2

/-- What an address reads after a byte is written: the byte at its address, every other as before (R43). -/
theorem Memory.read_write (m : List Host.Cell) (a a' : Nat) (b : Byte) :
    Memory.read (Memory.write m a b) a' = if a' = a then b else Memory.read m a' := by
  simp only [Memory.write]
  split
  · rename_i h; rw [Memory.read_erase]; subst h; rfl
  · rw [Memory.read_insert _ _ _ _ (fun c hc => Memory.ne_of_mem_erase hc), Memory.read_erase]
    by_cases h : a' = a <;> simp [h]

/-- What an address reads after bytes are written in order from `a` on. -/
theorem Memory.read_writeBytes (m : List Host.Cell) (a a' : Nat) (bs : List Byte) :
    Memory.read (Memory.writeBytes m a bs) a' =
      if a ≤ a' ∧ a' < a + bs.length then bs.getD (a' - a) 0 else Memory.read m a' := by
  induction bs generalizing m a with
  | nil => simp [Memory.writeBytes]
  | cons b bs ih =>
    simp only [Memory.writeBytes, ih, Memory.read_write, List.length_cons]
    rcases Nat.lt_trichotomy a' a with h | h | h
    · have h1 : ¬(a + 1 ≤ a' ∧ a' < a + 1 + bs.length) := by omega
      have h2 : ¬(a ≤ a' ∧ a' < a + (bs.length + 1)) := by omega
      have h3 : a' ≠ a := by omega
      rw [if_neg h1, if_neg h3, if_neg h2]
    · subst h; simp
    · have h3 : a' ≠ a := by omega
      have h4 : a' - a = (a' - (a + 1)) + 1 := by omega
      have h5 : (a + 1 ≤ a' ∧ a' < a + 1 + bs.length) ↔ (a ≤ a' ∧ a' < a + (bs.length + 1)) := by omega
      simp only [h5, h3, if_false, h4, List.getD_cons_succ]

/-- The bytes read are the bytes at the addresses in turn. -/
theorem Memory.readBytes_eq_map (m : List Host.Cell) (a n : Nat) :
    Memory.readBytes m a n = (List.range n).map (fun r => Memory.read m (a + r)) := by
  induction n generalizing a with
  | zero => simp [Memory.readBytes]
  | succ n ih =>
    simp only [Memory.readBytes, ih, List.range_succ_eq_map, List.map_cons, List.map_map, Nat.add_zero, List.cons.injEq,
      true_and]
    refine List.map_congr_left fun r _ => ?_
    simp only [Function.comp_apply, Nat.succ_eq_add_one]
    congr 1
    omega

@[simp] theorem Memory.length_readBytes (m : List Host.Cell) (a n : Nat) : (Memory.readBytes m a n).length = n := by
  simp [Memory.readBytes_eq_map]

theorem Memory.wf_erase {m : List Host.Cell} (h : Memory.wf m) (a : Nat) : Memory.wf (Memory.erase m a) :=
  ⟨h.1.filter _, fun c hc => h.2 c (List.mem_filter.mp hc).1⟩

theorem Memory.mem_insert {m : List Host.Cell} {a : Nat} {b : Byte} {c : Host.Cell} (h : c ∈ Memory.insert a b m) :
    c = (a, b) ∨ c ∈ m := by
  induction m with
  | nil => simpa [Memory.insert] using h
  | cons d m ih =>
    obtain ⟨k, e⟩ := d
    simp only [Memory.insert] at h
    split at h
    · simpa using h
    · rcases List.mem_cons.mp h with h | h
      · exact .inr (by simp [h])
      · rcases ih h with h | h
        · exact .inl h
        · exact .inr (by simp [h])

theorem Memory.wf_insert {m : List Host.Cell} (h : Memory.wf m) {a : Nat} {b : Byte} (ha : ∀ c ∈ m, c.1 ≠ a)
    (hb : b ≠ creationByte a) : Memory.wf (Memory.insert a b m) := by
  refine ⟨?_, fun c hc => ?_⟩
  · have h1 := h.1
    clear h
    induction m with
    | nil => simp [Memory.insert]
    | cons d m ih =>
      obtain ⟨k, e⟩ := d
      have hk : k ≠ a := ha (k, e) (by simp)
      obtain ⟨hd, hm⟩ := List.pairwise_cons.mp h1
      simp only [Memory.insert]
      split
      · rename_i hlt
        refine List.pairwise_cons.mpr ⟨fun c hc => ?_, h1⟩
        rcases List.mem_cons.mp hc with hc | hc
        · simpa [hc] using hlt
        · exact Nat.lt_trans hlt (hd c hc)
      · rename_i hlt
        refine List.pairwise_cons.mpr ⟨fun c hc => ?_, ih (fun c hc => ha c (by simp [hc])) hm⟩
        rcases Memory.mem_insert hc with hc | hc
        · subst hc; simp only; omega
        · exact hd c hc
  · rcases Memory.mem_insert hc with hc | hc
    · subst hc; exact hb
    · exact h.2 c hc

/-- A write keeps the canonical form. -/
theorem Memory.wf_write {m : List Host.Cell} (h : Memory.wf m) (a : Nat) (b : Byte) : Memory.wf (Memory.write m a b) := by
  simp only [Memory.write]
  split
  · exact Memory.wf_erase h a
  · exact Memory.wf_insert (Memory.wf_erase h a) (fun c hc => Memory.ne_of_mem_erase hc) (by assumption)

/-- Writing bytes in order keeps the canonical form. -/
theorem Memory.wf_writeBytes {m : List Host.Cell} (h : Memory.wf m) (a : Nat) (bs : List Byte) :
    Memory.wf (Memory.writeBytes m a bs) := by
  induction bs generalizing m a with
  | nil => exact h
  | cons b bs ih => exact ih (Memory.wf_write h a b) (a + 1)

/-- A write inside the address space keeps every cell inside it (R32). -/
theorem Memory.inSpace_write {m : List Host.Cell} (h : Memory.inSpace m) {a : Nat} (ha : a < Config.memSize) (b : Byte) :
    Memory.inSpace (Memory.write m a b) := by
  have he : Memory.inSpace (Memory.erase m a) := fun c hc => h c (List.mem_filter.mp hc).1
  intro c hc
  simp only [Memory.write] at hc
  split at hc
  · exact he c hc
  · rcases Memory.mem_insert hc with hc | hc
    · subst hc; exact ha
    · exact he c hc

/-- Writing bytes inside the address space keeps every cell inside it (R32). -/
theorem Memory.inSpace_writeBytes {m : List Host.Cell} (h : Memory.inSpace m) {a : Nat} {bs : List Byte}
    (ha : a + bs.length ≤ Config.memSize) : Memory.inSpace (Memory.writeBytes m a bs) := by
  induction bs generalizing m a with
  | nil => exact h
  | cons b bs ih =>
    simp only [List.length_cons] at ha
    exact ih (Memory.inSpace_write h (by omega) b) (by omega)

/-- Reset's memory has the canonical form. -/
theorem State.reset_mem_wf : Memory.wf State.reset.mem := by decide

end Sys2Proof.Machine
end

