-- ==== Sys2Proof/Laws/State.lean ====
section
/-! SUPPORT. One lemma per field per update of the state, so that no later proof unfolds a record update. -/

namespace Sys2Proof.Machine

variable (s : State)

/-! ### `State.writeV` -/

@[simp] theorem State.writeV_mem (r : RegNum) (b : Byte) : (s.writeV r b).mem = s.mem := rfl
@[simp] theorem State.writeV_v (r : RegNum) (b : Byte) : (s.writeV r b).v = s.v.set r.val b := rfl
@[simp] theorem State.writeV_i (r : RegNum) (b : Byte) : (s.writeV r b).i = s.i := rfl
@[simp] theorem State.writeV_pc (r : RegNum) (b : Byte) : (s.writeV r b).pc = s.pc := rfl
@[simp] theorem State.writeV_stack (r : RegNum) (b : Byte) : (s.writeV r b).stack = s.stack := rfl
@[simp] theorem State.writeV_dt (r : RegNum) (b : Byte) : (s.writeV r b).dt = s.dt := rfl
@[simp] theorem State.writeV_st (r : RegNum) (b : Byte) : (s.writeV r b).st = s.st := rfl
@[simp] theorem State.writeV_fb (r : RegNum) (b : Byte) : (s.writeV r b).fb = s.fb := rfl
@[simp] theorem State.writeV_key (r : RegNum) (b : Byte) : (s.writeV r b).key = s.key := rfl
@[simp] theorem State.writeV_fault (r : RegNum) (b : Byte) : (s.writeV r b).fault = s.fault := rfl
@[simp] theorem State.writeV_draws (r : RegNum) (b : Byte) : (s.writeV r b).draws = s.draws := rfl

/-! ### `State.setI` -/

@[simp] theorem State.setI_mem (w : Word) : (s.setI w).mem = s.mem := rfl
@[simp] theorem State.setI_v (w : Word) : (s.setI w).v = s.v := rfl
@[simp] theorem State.setI_i (w : Word) : (s.setI w).i = w := rfl
@[simp] theorem State.setI_pc (w : Word) : (s.setI w).pc = s.pc := rfl
@[simp] theorem State.setI_stack (w : Word) : (s.setI w).stack = s.stack := rfl
@[simp] theorem State.setI_dt (w : Word) : (s.setI w).dt = s.dt := rfl
@[simp] theorem State.setI_st (w : Word) : (s.setI w).st = s.st := rfl
@[simp] theorem State.setI_fb (w : Word) : (s.setI w).fb = s.fb := rfl
@[simp] theorem State.setI_key (w : Word) : (s.setI w).key = s.key := rfl
@[simp] theorem State.setI_fault (w : Word) : (s.setI w).fault = s.fault := rfl
@[simp] theorem State.setI_draws (w : Word) : (s.setI w).draws = s.draws := rfl

/-! ### `State.setPc` -/

@[simp] theorem State.setPc_mem (w : Word) : (s.setPc w).mem = s.mem := rfl
@[simp] theorem State.setPc_v (w : Word) : (s.setPc w).v = s.v := rfl
@[simp] theorem State.setPc_i (w : Word) : (s.setPc w).i = s.i := rfl
@[simp] theorem State.setPc_pc (w : Word) : (s.setPc w).pc = w := rfl
@[simp] theorem State.setPc_stack (w : Word) : (s.setPc w).stack = s.stack := rfl
@[simp] theorem State.setPc_dt (w : Word) : (s.setPc w).dt = s.dt := rfl
@[simp] theorem State.setPc_st (w : Word) : (s.setPc w).st = s.st := rfl
@[simp] theorem State.setPc_fb (w : Word) : (s.setPc w).fb = s.fb := rfl
@[simp] theorem State.setPc_key (w : Word) : (s.setPc w).key = s.key := rfl
@[simp] theorem State.setPc_fault (w : Word) : (s.setPc w).fault = s.fault := rfl
@[simp] theorem State.setPc_draws (w : Word) : (s.setPc w).draws = s.draws := rfl

/-! ### `State.setDt` -/

@[simp] theorem State.setDt_mem (b : Byte) : (s.setDt b).mem = s.mem := rfl
@[simp] theorem State.setDt_v (b : Byte) : (s.setDt b).v = s.v := rfl
@[simp] theorem State.setDt_i (b : Byte) : (s.setDt b).i = s.i := rfl
@[simp] theorem State.setDt_pc (b : Byte) : (s.setDt b).pc = s.pc := rfl
@[simp] theorem State.setDt_stack (b : Byte) : (s.setDt b).stack = s.stack := rfl
@[simp] theorem State.setDt_dt (b : Byte) : (s.setDt b).dt = b := rfl
@[simp] theorem State.setDt_st (b : Byte) : (s.setDt b).st = s.st := rfl
@[simp] theorem State.setDt_fb (b : Byte) : (s.setDt b).fb = s.fb := rfl
@[simp] theorem State.setDt_key (b : Byte) : (s.setDt b).key = s.key := rfl
@[simp] theorem State.setDt_fault (b : Byte) : (s.setDt b).fault = s.fault := rfl
@[simp] theorem State.setDt_draws (b : Byte) : (s.setDt b).draws = s.draws := rfl

/-! ### `State.setSt` -/

@[simp] theorem State.setSt_mem (b : Byte) : (s.setSt b).mem = s.mem := rfl
@[simp] theorem State.setSt_v (b : Byte) : (s.setSt b).v = s.v := rfl
@[simp] theorem State.setSt_i (b : Byte) : (s.setSt b).i = s.i := rfl
@[simp] theorem State.setSt_pc (b : Byte) : (s.setSt b).pc = s.pc := rfl
@[simp] theorem State.setSt_stack (b : Byte) : (s.setSt b).stack = s.stack := rfl
@[simp] theorem State.setSt_dt (b : Byte) : (s.setSt b).dt = s.dt := rfl
@[simp] theorem State.setSt_st (b : Byte) : (s.setSt b).st = b := rfl
@[simp] theorem State.setSt_fb (b : Byte) : (s.setSt b).fb = s.fb := rfl
@[simp] theorem State.setSt_key (b : Byte) : (s.setSt b).key = s.key := rfl
@[simp] theorem State.setSt_fault (b : Byte) : (s.setSt b).fault = s.fault := rfl
@[simp] theorem State.setSt_draws (b : Byte) : (s.setSt b).draws = s.draws := rfl

/-! ### `State.advance` -/

@[simp] theorem State.advance_mem : (s.advance).mem = s.mem := rfl
@[simp] theorem State.advance_v : (s.advance).v = s.v := rfl
@[simp] theorem State.advance_i : (s.advance).i = s.i := rfl
@[simp] theorem State.advance_pc : (s.advance).pc = s.pc + 2 := rfl
@[simp] theorem State.advance_stack : (s.advance).stack = s.stack := rfl
@[simp] theorem State.advance_dt : (s.advance).dt = s.dt := rfl
@[simp] theorem State.advance_st : (s.advance).st = s.st := rfl
@[simp] theorem State.advance_fb : (s.advance).fb = s.fb := rfl
@[simp] theorem State.advance_key : (s.advance).key = s.key := rfl
@[simp] theorem State.advance_fault : (s.advance).fault = s.fault := rfl
@[simp] theorem State.advance_draws : (s.advance).draws = s.draws := rfl

/-! ### `State.skip` -/

@[simp] theorem State.skip_mem : (s.skip).mem = s.mem := rfl
@[simp] theorem State.skip_v : (s.skip).v = s.v := rfl
@[simp] theorem State.skip_i : (s.skip).i = s.i := rfl
@[simp] theorem State.skip_pc : (s.skip).pc = s.pc + 2 := rfl
@[simp] theorem State.skip_stack : (s.skip).stack = s.stack := rfl
@[simp] theorem State.skip_dt : (s.skip).dt = s.dt := rfl
@[simp] theorem State.skip_st : (s.skip).st = s.st := rfl
@[simp] theorem State.skip_fb : (s.skip).fb = s.fb := rfl
@[simp] theorem State.skip_key : (s.skip).key = s.key := rfl
@[simp] theorem State.skip_fault : (s.skip).fault = s.fault := rfl
@[simp] theorem State.skip_draws : (s.skip).draws = s.draws := rfl

/-! ### `State.drawn` -/

@[simp] theorem State.drawn_mem : (s.drawn).mem = s.mem := rfl
@[simp] theorem State.drawn_v : (s.drawn).v = s.v := rfl
@[simp] theorem State.drawn_i : (s.drawn).i = s.i := rfl
@[simp] theorem State.drawn_pc : (s.drawn).pc = s.pc := rfl
@[simp] theorem State.drawn_stack : (s.drawn).stack = s.stack := rfl
@[simp] theorem State.drawn_dt : (s.drawn).dt = s.dt := rfl
@[simp] theorem State.drawn_st : (s.drawn).st = s.st := rfl
@[simp] theorem State.drawn_fb : (s.drawn).fb = s.fb := rfl
@[simp] theorem State.drawn_key : (s.drawn).key = s.key := rfl
@[simp] theorem State.drawn_fault : (s.drawn).fault = s.fault := rfl
@[simp] theorem State.drawn_draws : (s.drawn).draws = s.draws + 1 := rfl

/-! ### `State.clearFault` -/

@[simp] theorem State.clearFault_mem : (s.clearFault).mem = s.mem := rfl
@[simp] theorem State.clearFault_v : (s.clearFault).v = s.v := rfl
@[simp] theorem State.clearFault_i : (s.clearFault).i = s.i := rfl
@[simp] theorem State.clearFault_pc : (s.clearFault).pc = s.pc := rfl
@[simp] theorem State.clearFault_stack : (s.clearFault).stack = s.stack := rfl
@[simp] theorem State.clearFault_dt : (s.clearFault).dt = s.dt := rfl
@[simp] theorem State.clearFault_st : (s.clearFault).st = s.st := rfl
@[simp] theorem State.clearFault_fb : (s.clearFault).fb = s.fb := rfl
@[simp] theorem State.clearFault_key : (s.clearFault).key = s.key := rfl
@[simp] theorem State.clearFault_fault : (s.clearFault).fault = none := rfl
@[simp] theorem State.clearFault_draws : (s.clearFault).draws = s.draws := rfl

/-! ### `State.writeKey` -/

@[simp] theorem State.writeKey_mem (k : RegNum) (p : Bool) : (s.writeKey k p).mem = s.mem := rfl
@[simp] theorem State.writeKey_v (k : RegNum) (p : Bool) : (s.writeKey k p).v = s.v := rfl
@[simp] theorem State.writeKey_i (k : RegNum) (p : Bool) : (s.writeKey k p).i = s.i := rfl
@[simp] theorem State.writeKey_pc (k : RegNum) (p : Bool) : (s.writeKey k p).pc = s.pc := rfl
@[simp] theorem State.writeKey_stack (k : RegNum) (p : Bool) : (s.writeKey k p).stack = s.stack := rfl
@[simp] theorem State.writeKey_dt (k : RegNum) (p : Bool) : (s.writeKey k p).dt = s.dt := rfl
@[simp] theorem State.writeKey_st (k : RegNum) (p : Bool) : (s.writeKey k p).st = s.st := rfl
@[simp] theorem State.writeKey_fb (k : RegNum) (p : Bool) : (s.writeKey k p).fb = s.fb := rfl
@[simp] theorem State.writeKey_key (k : RegNum) (p : Bool) : (s.writeKey k p).key = s.key.set k.val p := rfl
@[simp] theorem State.writeKey_fault (k : RegNum) (p : Bool) : (s.writeKey k p).fault = s.fault := rfl
@[simp] theorem State.writeKey_draws (k : RegNum) (p : Bool) : (s.writeKey k p).draws = s.draws := rfl

/-! ### `State.raise` -/

@[simp] theorem State.raise_mem (c : Cause) (op : Option Word) : (s.raise c op).mem = s.mem := rfl
@[simp] theorem State.raise_v (c : Cause) (op : Option Word) : (s.raise c op).v = s.v := rfl
@[simp] theorem State.raise_i (c : Cause) (op : Option Word) : (s.raise c op).i = s.i := rfl
@[simp] theorem State.raise_pc (c : Cause) (op : Option Word) : (s.raise c op).pc = s.pc := rfl
@[simp] theorem State.raise_stack (c : Cause) (op : Option Word) : (s.raise c op).stack = s.stack := rfl
@[simp] theorem State.raise_dt (c : Cause) (op : Option Word) : (s.raise c op).dt = s.dt := rfl
@[simp] theorem State.raise_st (c : Cause) (op : Option Word) : (s.raise c op).st = s.st := rfl
@[simp] theorem State.raise_fb (c : Cause) (op : Option Word) : (s.raise c op).fb = s.fb := rfl
@[simp] theorem State.raise_key (c : Cause) (op : Option Word) : (s.raise c op).key = s.key := rfl
@[simp] theorem State.raise_fault (c : Cause) (op : Option Word) : (s.raise c op).fault = some ⟨kindOf c, s.pc, op, infoOf c⟩ := rfl
@[simp] theorem State.raise_draws (c : Cause) (op : Option Word) : (s.raise c op).draws = s.draws := rfl

/-! ### `State.placeWord` -/

@[simp] theorem State.placeWord_mem (op : Word) : (s.placeWord op).mem = Memory.writeBytes s.mem s.fetchPlace.toNat (bytesOf op) := rfl
@[simp] theorem State.placeWord_v (op : Word) : (s.placeWord op).v = s.v := rfl
@[simp] theorem State.placeWord_i (op : Word) : (s.placeWord op).i = s.i := rfl
@[simp] theorem State.placeWord_pc (op : Word) : (s.placeWord op).pc = s.fetchPlace := rfl
@[simp] theorem State.placeWord_stack (op : Word) : (s.placeWord op).stack = s.stack := rfl
@[simp] theorem State.placeWord_dt (op : Word) : (s.placeWord op).dt = s.dt := rfl
@[simp] theorem State.placeWord_st (op : Word) : (s.placeWord op).st = s.st := rfl
@[simp] theorem State.placeWord_fb (op : Word) : (s.placeWord op).fb = s.fb := rfl
@[simp] theorem State.placeWord_key (op : Word) : (s.placeWord op).key = s.key := rfl
@[simp] theorem State.placeWord_fault (op : Word) : (s.placeWord op).fault = none := rfl
@[simp] theorem State.placeWord_draws (op : Word) : (s.placeWord op).draws = s.draws := rfl

/-! ### Registers and keys read back -/

/-- What a register reads after a register is written (R13, R14). -/
@[simp] theorem State.readV_writeV (x r : RegNum) (b : Byte) :
    (s.writeV x b).readV r = if r = x then b else s.readV r := by
  simp only [State.readV, State.writeV, Vector.getElem_set, Fin.ext_iff, eq_comm]

/-- What a key reads after a key is written (R26, R114). -/
@[simp] theorem State.keyDown_writeKey (k j : RegNum) (p : Bool) :
    (s.writeKey k p).keyDown j = if j = k then p else s.keyDown j := by
  simp only [State.keyDown, State.writeKey, Vector.getElem_set, Fin.ext_iff, eq_comm]

/-- A register read sees the register file only. -/
theorem State.readV_congr {s t : State} (h : t.v = s.v) (r : RegNum) : t.readV r = s.readV r := by
  simp only [State.readV, h]

/-- A key read sees the keypad only. -/
theorem State.keyDown_congr {s t : State} (h : t.key = s.key) (k : RegNum) : t.keyDown k = s.keyDown k := by
  simp only [State.keyDown, h]

@[simp] theorem State.readV_setI (w : Word) (r : RegNum) : (s.setI w).readV r = s.readV r := rfl
@[simp] theorem State.readV_setPc (w : Word) (r : RegNum) : (s.setPc w).readV r = s.readV r := rfl
@[simp] theorem State.readV_setDt (b : Byte) (r : RegNum) : (s.setDt b).readV r = s.readV r := rfl
@[simp] theorem State.readV_setSt (b : Byte) (r : RegNum) : (s.setSt b).readV r = s.readV r := rfl
@[simp] theorem State.readV_advance (r : RegNum) : s.advance.readV r = s.readV r := rfl
@[simp] theorem State.readV_skip (r : RegNum) : s.skip.readV r = s.readV r := rfl
@[simp] theorem State.readV_drawn (r : RegNum) : s.drawn.readV r = s.readV r := rfl
@[simp] theorem State.readV_clearFault (r : RegNum) : s.clearFault.readV r = s.readV r := rfl
@[simp] theorem State.readV_writeKey (k r : RegNum) (p : Bool) : (s.writeKey k p).readV r = s.readV r := rfl
@[simp] theorem State.readV_raise (c : Cause) (op : Option Word) (r : RegNum) : (s.raise c op).readV r = s.readV r := rfl

/-- `skipIf` moves PC by 2 or by nothing, and nothing else (R60). -/
theorem State.skipIf_eq (c : Bool) : s.skipIf c = s.setPc (if c then s.pc + 2 else s.pc) := by
  cases c <;> rfl

end Sys2Proof.Machine
end

