-- ==== Sys2Proof/Laws/Ops.lean ====
section
/-! SUPPORT. For each shared operation, one lemma that says everything it can do; later proofs cite these instead of
unfolding the operation. -/

namespace Sys2Proof.Machine

variable (s : State)

/-! ### The end of an instruction -/

/-- An instruction whose effect succeeds goes to the state of its effect (R56). -/
@[simp] theorem attempt_ok (i : Instr) (t : State) : attempt i s (.ok t) = .next t := rfl

/-- An instruction that raises goes to the state R104 gives. -/
@[simp] theorem attempt_error (i : Instr) (c : Cause) : attempt i s (.error c) = .next (s.raise c (some (encode i))) := rfl

/-- An instruction ends in a next state: that of its effect, or that of the fault it raises. -/
theorem attempt_cases {i : Instr} {e : Except Cause State} {t : State} (h : attempt i s e = .next t) :
    e = .ok t ∨ ∃ c, e = .error c ∧ t = s.raise c (some (encode i)) := by
  cases e with
  | ok u => simp only [attempt_ok, Host.Outcome.next.injEq] at h; exact .inl (by rw [h])
  | error c => simp only [attempt_error, Host.Outcome.next.injEq] at h; exact .inr ⟨c, rfl, h.symm⟩

/-! ### The memory arbiter -/

/-- The check passes exactly when no address lies above 0xFFF (R34, R35). -/
theorem rangeCheck_ok {a n : Nat} (h : n = 0 ∨ a + n ≤ 0x1000) : rangeCheck a n = .ok () := by
  simp only [rangeCheck]; split
  · omega
  · rfl

/-- A failed check reports the lowest address above 0xFFF (R35, R102). -/
theorem rangeCheck_error {a n : Nat} (h0 : 0 < n) (h : 0x1000 < a + n) :
    rangeCheck a n = .error (.addressOutOfRange (max a 0x1000)) := by
  simp only [rangeCheck]; split
  · rfl
  · omega

theorem rangeCheck_cases (a n : Nat) :
    ((n = 0 ∨ a + n ≤ 0x1000) ∧ rangeCheck a n = .ok ()) ∨
      (0 < n ∧ 0x1000 < a + n ∧ rangeCheck a n = .error (.addressOutOfRange (max a 0x1000))) := by
  by_cases h : n = 0 ∨ a + n ≤ 0x1000
  · exact .inl ⟨h, rangeCheck_ok h⟩
  · exact .inr ⟨by omega, by omega, rangeCheck_error (by omega) (by omega)⟩

/-- `MemRead` of one byte (R34). -/
theorem State.memRead_cases (a : Nat) :
    (a ≤ 0xFFF ∧ s.memRead a = .ok (Memory.read s.mem a)) ∨
      (0xFFF < a ∧ s.memRead a = .error (.addressOutOfRange a)) := by
  simp only [State.memRead]; split
  · exact .inr ⟨by assumption, rfl⟩
  · exact .inl ⟨by omega, rfl⟩

theorem State.memReadBytes_ok {a n : Nat} (h : n = 0 ∨ a + n ≤ 0x1000) :
    s.memReadBytes a n = .ok (Memory.readBytes s.mem a n) := by
  simp only [State.memReadBytes, rangeCheck_ok h]

theorem State.memReadBytes_error {a n : Nat} (h0 : 0 < n) (h : 0x1000 < a + n) :
    s.memReadBytes a n = .error (.addressOutOfRange (max a 0x1000)) := by
  simp only [State.memReadBytes, rangeCheck_error h0 h]

theorem State.memWriteBytes_ok {a : Nat} {bs : List Byte} (h : bs.length = 0 ∨ a + bs.length ≤ 0x1000) :
    s.memWriteBytes a bs = .ok { s with mem := Memory.writeBytes s.mem a bs } := by
  simp only [State.memWriteBytes, rangeCheck_ok h]

theorem State.memWriteBytes_error {a : Nat} {bs : List Byte} (h0 : 0 < bs.length) (h : 0x1000 < a + bs.length) :
    s.memWriteBytes a bs = .error (.addressOutOfRange (max a 0x1000)) := by
  simp only [State.memWriteBytes, rangeCheck_error h0 h]

/-! ### The stack controller -/

/-- `push` on a stack that is not full (R20). -/
theorem State.push_ok {s : State} (h : s.stack.length < 16) (w : Word) :
    s.push w = .ok { s with stack := s.stack ++ [w] } := by
  simp [State.push, Config.stackDepth, h]

/-- `push` on a full stack (R20). -/
theorem State.push_error {s : State} (h : 16 ≤ s.stack.length) (w : Word) : s.push w = .error .stackOverflow := by
  simp [State.push, Config.stackDepth, Nat.not_lt.mpr h]

/-- `pop` of a stack whose top entry is `w` (R21). -/
theorem State.pop_ok {s : State} {ws : List Word} {w : Word} (h : s.stack = ws ++ [w]) :
    s.pop = .ok (w, { s with stack := ws }) := by
  simp [State.pop, h]

/-- `pop` of an empty stack (R21). -/
theorem State.pop_error {s : State} (h : s.stack = []) : s.pop = .error .stackUnderflow := by
  simp [State.pop, h]

/-! ### Operands -/

theorem checkedAddress_ok {t : Nat} (h : t ≤ 0xFFF) : checkedAddress t = .ok (BitVec.ofNat 16 t) := by
  simp [checkedAddress, Nat.not_lt.mpr h]

theorem checkedAddress_error {t : Nat} (h : 0xFFF < t) : checkedAddress t = .error (.addressOutOfRange t) := by
  simp [checkedAddress, h]

theorem keyNumber_ok (policy : KeyIndexPolicy) {b : Byte} (h : b.toNat < 16) : keyNumber policy b = .ok ⟨b.toNat, h⟩ := by
  simp [keyNumber, h]

theorem keyNumber_fault {b : Byte} (h : 16 ≤ b.toNat) : keyNumber .fault b = .error (.keyIndexOutOfRange b) := by
  simp [keyNumber, Nat.not_lt.mpr h]

/-! ### Bulk register moves -/

/-- What a register reads after `writeVs` (R89). -/
theorem State.readV_writeVs (r : Nat) (bs : List Byte) (k : RegNum) :
    (s.writeVs r bs).readV k = if r ≤ k.val ∧ k.val < r + bs.length then bs.getD (k.val - r) 0 else s.readV k := by
  induction bs generalizing s r with
  | nil =>
    have : ¬(r ≤ k.val ∧ k.val < r + ([] : List Byte).length) := by simp
    rw [if_neg this]; rfl
  | cons b bs ih =>
    simp only [State.writeVs, ih, List.length_cons]
    have hk := k.isLt
    rcases Nat.lt_trichotomy k.val r with h | h | h
    · have h1 : ¬(r + 1 ≤ k.val ∧ k.val < r + 1 + bs.length) := by omega
      have h2 : ¬(r ≤ k.val ∧ k.val < r + (bs.length + 1)) := by omega
      rw [if_neg h1, if_neg h2]
      split
      · rw [State.readV_writeV, if_neg]; intro e; subst e; simp at h
      · rfl
    · subst h
      have h1 : ¬(k.val + 1 ≤ k.val ∧ k.val < k.val + 1 + bs.length) := by omega
      rw [if_neg h1]
      simp
    · have h1 : (r + 1 ≤ k.val ∧ k.val < r + 1 + bs.length) ↔ (r ≤ k.val ∧ k.val < r + (bs.length + 1)) := by omega
      have h4 : k.val - r = (k.val - (r + 1)) + 1 := by omega
      simp only [h1, h4, List.getD_cons_succ]
      congr 1
      split
      · rw [State.readV_writeV, if_neg]; intro e; subst e; simp at h
      · rfl

/-- `writeVs` changes the register file only. -/
theorem State.writeVs_eq (r : Nat) (bs : List Byte) : s.writeVs r bs = { s with v := (s.writeVs r bs).v } := by
  induction bs generalizing s r with
  | nil => rfl
  | cons b bs ih =>
    simp only [State.writeVs]
    rw [ih]
    split <;> rfl

@[simp] theorem State.length_readVsTo (x : RegNum) : (s.readVsTo x).length = x.val + 1 := by
  have := x.isLt
  simp only [State.readVsTo, List.length_take, Vector.length_toList]
  omega

/-- The r-th value `readVsTo` gives is Vr (R88). -/
theorem State.readVsTo_getD (x r : RegNum) (h : r ≤ x) : (s.readVsTo x).getD r.val 0 = s.readV r := by
  have h1 : r.val < x.val + 1 := by have := Fin.le_def.mp h; omega
  simp [State.readVsTo, State.readV, h1]

/-! ### The keypad -/

/-- R100's set P: exactly the keys pressed now. -/
theorem State.mem_pressed (k : RegNum) : k ∈ s.pressed ↔ s.keyDown k = true := by
  simp [State.pressed]

/-- The key drawn is one of the pressed keys (R100). -/
theorem State.drawFrom_mem (k : RegNum) (ks : List RegNum) : s.drawFrom k ks ∈ k :: ks := by
  have h : Config.drawKey s.draws % (ks.length + 1) < (k :: ks).length := Nat.mod_lt _ (Nat.succ_pos _)
  simp only [State.drawFrom, List.getD_eq_getElem?_getD, List.getElem?_eq_getElem h, Option.getD_some]
  exact List.getElem_mem h

/-! ### The fetch -/

/-- The fetch of a word that lies in memory (R36, R56). -/
theorem State.fetch_ok {s : State} (h : s.pc.toNat ≤ 0xFFE) :
    s.fetch = .ok (wordOf (Memory.read s.mem s.pc.toNat) (Memory.read s.mem (s.pc.toNat + 1))) := by
  have h1 : ¬ 0xFFF < s.pc.toNat := by omega
  have h2 : ¬ 0xFFF < s.pc.toNat + 1 := by omega
  simp only [State.fetch, State.memRead, if_neg h1, if_neg h2]

/-- The fetch of a word that does not lie in memory reports its lowest address above 0xFFF (R34, R106). -/
theorem State.fetch_error {s : State} (h : 0xFFE < s.pc.toNat) :
    s.fetch = .error (.addressOutOfRange (max s.pc.toNat 0x1000)) := by
  by_cases h1 : 0xFFF < s.pc.toNat
  · have : max s.pc.toNat 0x1000 = s.pc.toNat := by omega
    simp only [State.fetch, State.memRead, if_pos h1, this]
  · have e : s.pc.toNat = 0xFFF := by omega
    simp [State.fetch, State.memRead, e]

end Sys2Proof.Machine
end

