-- ==== Sys2Proof/Laws/Display.lean ====
section
/-! SUPPORT. What the pixel writer and Dxyn's loop do to the framebuffer (spec/43_display.md R91 to R94). -/

namespace Sys2Proof.Machine

/-- What a pixel reads after the pixel writer: the named one inverted, every other as before (R92). -/
theorem pixel_writePixel (fb : Frame) (px qx : Fin 64) (py qy : Fin 32) :
    pixel (writePixel fb px py).1 qx qy = (pixel fb qx qy ^^ decide (qx = px ∧ qy = py)) := by
  simp only [pixel, writePixel, Vector.getElem_set]
  by_cases hy : py = qy
  · subst hy
    by_cases hx : px = qx
    · subst hx; simp
    · have : ¬ px.val = qx.val := fun h => hx (Fin.ext h)
      have hx' : ¬ qx = px := fun h => hx h.symm
      simp [this, hx']
  · have : ¬ py.val = qy.val := fun h => hy (Fin.ext h)
    have hy' : ¬ qy = py := fun h => hy h.symm
    simp [this, hy']

/-- A framebuffer with every pixel off (R90). -/
@[simp] theorem pixel_blankFrame (px : Fin 64) (py : Fin 32) : pixel blankFrame px py = false := by
  simp [pixel, blankFrame]

/-- One call of the pixel writer, collecting whether a pixel was on. -/
def drawPixel (acc : Frame × Bool) (p : Fin 64 × Fin 32) : Frame × Bool :=
  ((writePixel acc.1 p.1 p.2).1, acc.2 || (writePixel acc.1 p.1 p.2).2)

/-- The pixel a sprite bit is written to, if it is 1 and on the screen. -/
def bitTarget (edge : DrawEdge) (cx cy : Nat) (row : Byte) (r c : Nat) : Option (Fin 64 × Fin 32) :=
  if spriteBit row c then spritePos edge cx cy c r else none

/-- The pixels the sprite rows from row r on are written to, in the order of the loop. -/
def spriteTargets (edge : DrawEdge) (cx cy : Nat) : Nat → List Byte → List (Fin 64 × Fin 32)
  | _, [] => []
  | r, row :: rows =>
    [0, 1, 2, 3, 4, 5, 6, 7].filterMap (bitTarget edge cx cy row r) ++ spriteTargets edge cx cy (r + 1) rows

theorem drawRows_eq_foldl (edge : DrawEdge) (cx cy r : Nat) (rows : List Byte) (acc : Frame × Bool) :
    drawRows edge cx cy r rows acc = (spriteTargets edge cx cy r rows).foldl drawPixel acc := by
  induction rows generalizing r acc with
  | nil => rfl
  | cons row rows ih =>
    simp only [drawRows, spriteTargets, List.foldl_append, ih, List.foldl_filterMap, drawRow]
    congr 2
    funext a c
    simp only [drawBit, bitTarget, drawPixel]
    cases spriteBit row c
    · simp
    · simp only [if_true]
      cases spritePos edge cx cy c r <;> rfl

/-- Writing distinct pixels inverts exactly them, and a collision is one of them that was on (R92, R93). -/
theorem foldl_drawPixel (ps : List (Fin 64 × Fin 32)) (h : ps.Nodup) (acc : Frame × Bool) :
    (∀ qx qy, pixel (ps.foldl drawPixel acc).1 qx qy = (pixel acc.1 qx qy ^^ decide ((qx, qy) ∈ ps))) ∧
      (ps.foldl drawPixel acc).2 = (acc.2 || decide (∃ p ∈ ps, pixel acc.1 p.1 p.2 = true)) := by
  induction ps generalizing acc with
  | nil => simp
  | cons p ps ih =>
    obtain ⟨hp, hps⟩ := List.nodup_cons.mp h
    obtain ⟨ih1, ih2⟩ := ih hps (drawPixel acc p)
    refine ⟨fun qx qy => ?_, ?_⟩
    · rw [List.foldl_cons, ih1]
      simp only [drawPixel, pixel_writePixel, List.mem_cons, Prod.ext_iff]
      by_cases hq : qx = p.1 ∧ qy = p.2
      · have hq' : ¬ (qx, qy) ∈ ps := by rw [hq.1, hq.2]; exact hp
        simp [hq.1, hq.2, hp]
      · simp [hq]
    · rw [List.foldl_cons, ih2]
      have hc : (∃ q ∈ ps, pixel (drawPixel acc p).1 q.1 q.2 = true) ↔ ∃ q ∈ ps, pixel acc.1 q.1 q.2 = true := by
        refine exists_congr fun q => and_congr_right fun hq => ?_
        have hne : ¬ (q.1 = p.1 ∧ q.2 = p.2) := fun e => hp (by rwa [← Prod.ext e.1 e.2])
        simp [drawPixel, pixel_writePixel, hne]
      simp only [hc, List.mem_cons, exists_eq_or_imp]
      simp only [drawPixel, writePixel]
      cases acc.2 <;> cases pixel acc.1 p.1 p.2 <;> simp

theorem mem_spriteTargets (edge : DrawEdge) (cx cy r : Nat) (rows : List Byte) (p : Fin 64 × Fin 32) :
    p ∈ spriteTargets edge cx cy r rows ↔
      ∃ k c, k < rows.length ∧ c < 8 ∧ spriteBit (rows.getD k 0) c = true ∧ spritePos edge cx cy c (r + k) = some p := by
  induction rows generalizing r with
  | nil => simp [spriteTargets]
  | cons row rows ih =>
    simp only [spriteTargets, List.mem_append, List.mem_filterMap, ih, List.length_cons]
    have hc : ∀ c, c ∈ [0, 1, 2, 3, 4, 5, 6, 7] ↔ c < 8 := by intro c; simp; omega
    constructor
    · rintro (⟨c, hc8, h⟩ | ⟨k, c, hk, hc8, hb, hp⟩)
      · simp only [bitTarget, Option.ite_none_right_eq_some] at h
        exact ⟨0, c, by omega, (hc c).mp hc8, by simpa using h.1, by simpa using h.2⟩
      · exact ⟨k + 1, c, by omega, hc8, by simpa using hb, by rw [show r + (k + 1) = r + 1 + k by omega]; exact hp⟩
    · rintro ⟨k, c, hk, hc8, hb, hp⟩
      cases k with
      | zero =>
        refine .inl ⟨c, (hc c).mpr hc8, ?_⟩
        simp only [bitTarget, Option.ite_none_right_eq_some]
        exact ⟨by simpa using hb, by simpa using hp⟩
      | succ k =>
        exact .inr ⟨k, c, by omega, hc8, by simpa using hb, by rw [show r + 1 + k = r + (k + 1) by omega]; exact hp⟩

/-- Where a sprite bit lands tells its column and row modulo the screen's size. -/
theorem spritePos_eq_some {edge : DrawEdge} {cx cy c r : Nat} {p : Fin 64 × Fin 32} (h : spritePos edge cx cy c r = some p) :
    p.1.val = (cx + c) % 64 ∧ p.2.val = (cy + r) % 32 := by
  cases edge with
  | wrap => simp only [spritePos, Option.some.injEq] at h; subst h; exact ⟨rfl, rfl⟩
  | clip =>
    simp only [spritePos] at h
    split at h
    · rename_i hc
      simp only [Option.some.injEq] at h
      subst h
      exact ⟨(Nat.mod_eq_of_lt hc.1).symm, (Nat.mod_eq_of_lt hc.2).symm⟩
    · cases h

/-- No pixel is written twice by one Dxyn (R94 (a)): a sprite has 8 columns, and fewer than 32 rows. -/
theorem nodup_spriteTargets (edge : DrawEdge) (cx cy r : Nat) (rows : List Byte) (h : rows.length ≤ 32) :
    (spriteTargets edge cx cy r rows).Nodup := by
  induction rows generalizing r with
  | nil => simp [spriteTargets]
  | cons row rows ih =>
    simp only [List.length_cons] at h
    simp only [spriteTargets]
    refine List.nodup_append.mpr ⟨?_, ih (r + 1) (by omega), ?_⟩
    · refine List.Pairwise.filterMap (R := fun a b => a ≠ b ∧ a < 8 ∧ b < 8) _ ?_ (by decide)
      rintro a b ⟨hab, ha, hb⟩ p hp q hq rfl
      simp only [bitTarget, Option.ite_none_right_eq_some] at hp hq
      have h1 := (spritePos_eq_some hp.2).1
      have h2 := (spritePos_eq_some hq.2).1
      omega
    · rintro p hp q hq rfl
      obtain ⟨c, -, hc⟩ := List.mem_filterMap.mp hp
      simp only [bitTarget, Option.ite_none_right_eq_some] at hc
      obtain ⟨k, c', hk, -, -, hp'⟩ := (mem_spriteTargets edge cx cy (r + 1) rows p).mp hq
      have h1 := (spritePos_eq_some hc.2).2
      have h2 := (spritePos_eq_some hp').2
      omega

end Sys2Proof.Machine
end

