-- ==== Sys2Proof/Laws/Encoding.lean ====
section
/-! SUPPORT. What each field of an assembled word reads as (spec/30_encoding.md R49, R50), and that a word is made of
its fields and of its two bytes. -/

namespace Sys2Proof

/-! ### Extracting from an appended vector -/

theorem extract_append_hi {n m : Nat} (a : BitVec n) (b : BitVec m) (k len : Nat) :
    (a ++ b).extractLsb' (m + k) len = a.extractLsb' k len := by
  ext i h
  have h1 : ¬ m + k + i < m := by omega
  have h2 : m + k + i - m = k + i := by omega
  simp only [BitVec.getElem_extractLsb', BitVec.getLsbD_append, h1, if_false, h2]

theorem extract_append_lo {n m : Nat} (a : BitVec n) (b : BitVec m) {k len : Nat} (hk : k + len ≤ m) :
    (a ++ b).extractLsb' k len = b.extractLsb' k len := by
  ext i h
  have h1 : k + i < m := by omega
  simp only [BitVec.getElem_extractLsb', BitVec.getLsbD_append, h1, if_true]

theorem extract_all {n : Nat} (a : BitVec n) : a.extractLsb' 0 n = a := by
  ext i h
  simp

theorem append_extract {n m w : Nat} (a : BitVec w) (k : Nat) :
    a.extractLsb' (k + m) n ++ a.extractLsb' k m = a.extractLsb' k (n + m) := by
  ext i h
  by_cases h1 : i < m
  · simp [BitVec.getElem_append, h1]
  · have h2 : k + m + (i - m) = k + i := by omega
    simp [BitVec.getElem_append, h1, h2]

/-! ### Register fields -/

@[simp] theorem regOf_bitsOf (x : RegNum) : regOf (bitsOf x) = x := rfl
@[simp] theorem bitsOf_regOf (b : Nibble) : bitsOf (regOf b) = b := rfl

variable (o : Nibble) (x y : RegNum) (n : Nibble) (kk : Byte) (nnn : Addr12) (op : Word)

/-! ### Format A -/

@[simp] theorem fieldO_formatA : fieldO (formatA o nnn) = o := (extract_append_hi o nnn 0 4).trans (extract_all o)

@[simp] theorem fieldNnn_formatA : fieldNnn (formatA o nnn) = nnn :=
  (extract_append_lo o nnn (k := 0) (len := 12) (by omega)).trans (extract_all nnn)

theorem formatA_fields : formatA (fieldO op) (fieldNnn op) = op :=
  (append_extract (n := 4) (m := 12) op 0).trans (extract_all op)

/-! ### Format XK -/

@[simp] theorem fieldO_formatXK : fieldO (formatXK o x kk) = o :=
  (extract_append_hi (o ++ bitsOf x) kk 4 4).trans ((extract_append_hi o (bitsOf x) 0 4).trans (extract_all o))

@[simp] theorem fieldX_formatXK : fieldX (formatXK o x kk) = bitsOf x :=
  (extract_append_hi (o ++ bitsOf x) kk 0 4).trans
    ((extract_append_lo o (bitsOf x) (k := 0) (len := 4) (by omega)).trans (extract_all _))

@[simp] theorem fieldKk_formatXK : fieldKk (formatXK o x kk) = kk :=
  (extract_append_lo (o ++ bitsOf x) kk (k := 0) (len := 8) (by omega)).trans (extract_all kk)

theorem formatXK_fields : formatXK (fieldO op) (regOf (fieldX op)) (fieldKk op) = op := by
  show op.extractLsb' 12 4 ++ op.extractLsb' 8 4 ++ op.extractLsb' 0 8 = op
  rw [append_extract (n := 4) (m := 4) op 8, append_extract (n := 8) (m := 8) op 0, extract_all]

/-! ### Format XYN -/

@[simp] theorem fieldO_formatXYN : fieldO (formatXYN o x y n) = o :=
  (extract_append_hi (o ++ bitsOf x ++ bitsOf y) n 8 4).trans
    ((extract_append_hi (o ++ bitsOf x) (bitsOf y) 4 4).trans
      ((extract_append_hi o (bitsOf x) 0 4).trans (extract_all o)))

@[simp] theorem fieldX_formatXYN : fieldX (formatXYN o x y n) = bitsOf x :=
  (extract_append_hi (o ++ bitsOf x ++ bitsOf y) n 4 4).trans
    ((extract_append_hi (o ++ bitsOf x) (bitsOf y) 0 4).trans
      ((extract_append_lo o (bitsOf x) (k := 0) (len := 4) (by omega)).trans (extract_all _)))

@[simp] theorem fieldY_formatXYN : fieldY (formatXYN o x y n) = bitsOf y :=
  (extract_append_hi (o ++ bitsOf x ++ bitsOf y) n 0 4).trans
    ((extract_append_lo (o ++ bitsOf x) (bitsOf y) (k := 0) (len := 4) (by omega)).trans (extract_all _))

@[simp] theorem fieldN_formatXYN : fieldN (formatXYN o x y n) = n :=
  (extract_append_lo (o ++ bitsOf x ++ bitsOf y) n (k := 0) (len := 4) (by omega)).trans (extract_all n)

theorem formatXYN_fields : formatXYN (fieldO op) (regOf (fieldX op)) (regOf (fieldY op)) (fieldN op) = op := by
  show op.extractLsb' 12 4 ++ op.extractLsb' 8 4 ++ op.extractLsb' 4 4 ++ op.extractLsb' 0 4 = op
  rw [append_extract (n := 4) (m := 4) op 8, append_extract (n := 8) (m := 4) op 4,
    append_extract (n := 12) (m := 4) op 0, extract_all]

/-! ### The two bytes of a word -/

/-- The two bytes of a word, high byte first, make the word (R36). -/
theorem wordOf_bytes : wordOf (op.extractLsb 15 8) (op.extractLsb 7 0) = op :=
  (append_extract (n := 8) (m := 8) op 0).trans (extract_all op)

end Sys2Proof
end

