-- ==== Sys2Proof/Laws/PerInstr.lean ====
section
/-! SUPPORT. Statements about every instruction form as syntax, one lemma per constructor. Family `TableRow`: the word
of an instruction has the fixed bits its row of spec/opcode_table.json gives. -/

namespace Sys2Proof

theorem append_and {n m : Nat} (a a' : BitVec n) (b b' : BitVec m) : (a ++ b) &&& (a' ++ b') = (a &&& a') ++ (b &&& b') :=
  BitVec.and_append

theorem and_ones4 (a : BitVec 4) : a &&& 0xF#4 = a := BitVec.and_allOnes

theorem and_ones8 (a : BitVec 8) : a &&& 0xFF#8 = a := BitVec.and_allOnes

/-- The bits mask 0xF000 keeps are the major opcode. -/
theorem and_F000 (op : Word) : op &&& 0xF000 = formatA (fieldO op) 0 := by
  conv_lhs => rw [← formatA_fields op]
  generalize fieldO op = o
  generalize fieldNnn op = nnn
  refine (append_and o 0xF#4 nnn 0#12).trans ?_
  rw [and_ones4, BitVec.and_zero]
  rfl

/-- The bits mask 0xF00F keeps are the major opcode and the low nibble. -/
theorem and_F00F (op : Word) : op &&& 0xF00F = formatXYN (fieldO op) 0 0 (fieldN op) := by
  conv_lhs => rw [← formatXYN_fields op]
  generalize fieldO op = o
  generalize fieldN op = n
  refine (append_and (o ++ bitsOf (regOf (fieldX op)) ++ bitsOf (regOf (fieldY op))) 0xF00#12 n 0xF#4).trans ?_
  rw [and_ones4, show (0xF00#12 : BitVec 12) = (0xF0#8 : BitVec 8) ++ (0#4 : BitVec 4) by decide, append_and,
    show (0xF0#8 : BitVec 8) = (0xF#4 : BitVec 4) ++ (0#4 : BitVec 4) by decide, append_and, and_ones4]
  simp only [BitVec.and_zero]
  rfl

/-- The bits mask 0xF0FF keeps are the major opcode and the low byte. -/
theorem and_F0FF (op : Word) : op &&& 0xF0FF = formatXK (fieldO op) 0 (fieldKk op) := by
  conv_lhs => rw [← formatXK_fields op]
  generalize fieldO op = o
  generalize fieldKk op = kk
  refine (append_and (o ++ bitsOf (regOf (fieldX op))) 0xF0#8 kk 0xFF#8).trans ?_
  rw [and_ones8, show (0xF0#8 : BitVec 8) = (0xF#4 : BitVec 4) ++ (0#4 : BitVec 4) by decide, append_and, and_ones4]
  simp only [BitVec.and_zero]
  rfl

/-- The word of `i` has the fixed bits of its row of spec/opcode_table.json. -/
def Laws.TableRow.Statement (i : Instr) : Prop := encode i &&& (tableRow i).2 = (tableRow i).1

theorem Laws.TableRow.sys (nnn : Addr12) : Laws.TableRow.Statement (.sys nnn) := (and_F000 _).trans (by rw [encode, fieldO_formatA]; rfl)
theorem Laws.TableRow.cls : Laws.TableRow.Statement .cls := rfl
theorem Laws.TableRow.ret : Laws.TableRow.Statement .ret := rfl
theorem Laws.TableRow.jp (nnn : Addr12) : Laws.TableRow.Statement (.jp nnn) := (and_F000 _).trans (by rw [encode, fieldO_formatA]; rfl)
theorem Laws.TableRow.call (nnn : Addr12) : Laws.TableRow.Statement (.call nnn) := (and_F000 _).trans (by rw [encode, fieldO_formatA]; rfl)
theorem Laws.TableRow.seImm (x : RegNum) (kk : Byte) : Laws.TableRow.Statement (.seImm x kk) := (and_F000 _).trans (by rw [encode, fieldO_formatXK]; rfl)
theorem Laws.TableRow.sneImm (x : RegNum) (kk : Byte) : Laws.TableRow.Statement (.sneImm x kk) := (and_F000 _).trans (by rw [encode, fieldO_formatXK]; rfl)
theorem Laws.TableRow.seReg (x : RegNum) (y : RegNum) : Laws.TableRow.Statement (.seReg x y) := (and_F00F _).trans (by rw [encode, fieldO_formatXYN, fieldN_formatXYN]; rfl)
theorem Laws.TableRow.ldImm (x : RegNum) (kk : Byte) : Laws.TableRow.Statement (.ldImm x kk) := (and_F000 _).trans (by rw [encode, fieldO_formatXK]; rfl)
theorem Laws.TableRow.addImm (x : RegNum) (kk : Byte) : Laws.TableRow.Statement (.addImm x kk) := (and_F000 _).trans (by rw [encode, fieldO_formatXK]; rfl)
theorem Laws.TableRow.ldReg (x : RegNum) (y : RegNum) : Laws.TableRow.Statement (.ldReg x y) := (and_F00F _).trans (by rw [encode, fieldO_formatXYN, fieldN_formatXYN]; rfl)
theorem Laws.TableRow.orReg (x : RegNum) (y : RegNum) : Laws.TableRow.Statement (.orReg x y) := (and_F00F _).trans (by rw [encode, fieldO_formatXYN, fieldN_formatXYN]; rfl)
theorem Laws.TableRow.andReg (x : RegNum) (y : RegNum) : Laws.TableRow.Statement (.andReg x y) := (and_F00F _).trans (by rw [encode, fieldO_formatXYN, fieldN_formatXYN]; rfl)
theorem Laws.TableRow.xorReg (x : RegNum) (y : RegNum) : Laws.TableRow.Statement (.xorReg x y) := (and_F00F _).trans (by rw [encode, fieldO_formatXYN, fieldN_formatXYN]; rfl)
theorem Laws.TableRow.addReg (x : RegNum) (y : RegNum) : Laws.TableRow.Statement (.addReg x y) := (and_F00F _).trans (by rw [encode, fieldO_formatXYN, fieldN_formatXYN]; rfl)
theorem Laws.TableRow.sub (x : RegNum) (y : RegNum) : Laws.TableRow.Statement (.sub x y) := (and_F00F _).trans (by rw [encode, fieldO_formatXYN, fieldN_formatXYN]; rfl)
theorem Laws.TableRow.shr (x : RegNum) (y : RegNum) : Laws.TableRow.Statement (.shr x y) := (and_F00F _).trans (by rw [encode, fieldO_formatXYN, fieldN_formatXYN]; rfl)
theorem Laws.TableRow.subn (x : RegNum) (y : RegNum) : Laws.TableRow.Statement (.subn x y) := (and_F00F _).trans (by rw [encode, fieldO_formatXYN, fieldN_formatXYN]; rfl)
theorem Laws.TableRow.shl (x : RegNum) (y : RegNum) : Laws.TableRow.Statement (.shl x y) := (and_F00F _).trans (by rw [encode, fieldO_formatXYN, fieldN_formatXYN]; rfl)
theorem Laws.TableRow.sneReg (x : RegNum) (y : RegNum) : Laws.TableRow.Statement (.sneReg x y) := (and_F00F _).trans (by rw [encode, fieldO_formatXYN, fieldN_formatXYN]; rfl)
theorem Laws.TableRow.ldI (nnn : Addr12) : Laws.TableRow.Statement (.ldI nnn) := (and_F000 _).trans (by rw [encode, fieldO_formatA]; rfl)
theorem Laws.TableRow.jpV0 (nnn : Addr12) : Laws.TableRow.Statement (.jpV0 nnn) := (and_F000 _).trans (by rw [encode, fieldO_formatA]; rfl)
theorem Laws.TableRow.rnd (x : RegNum) (kk : Byte) : Laws.TableRow.Statement (.rnd x kk) := (and_F000 _).trans (by rw [encode, fieldO_formatXK]; rfl)
theorem Laws.TableRow.drw (x : RegNum) (y : RegNum) (n : Nibble) : Laws.TableRow.Statement (.drw x y n) := (and_F000 _).trans (by rw [encode, fieldO_formatXYN]; rfl)
theorem Laws.TableRow.skp (x : RegNum) : Laws.TableRow.Statement (.skp x) := (and_F0FF _).trans (by rw [encode, fieldO_formatXK, fieldKk_formatXK]; rfl)
theorem Laws.TableRow.sknp (x : RegNum) : Laws.TableRow.Statement (.sknp x) := (and_F0FF _).trans (by rw [encode, fieldO_formatXK, fieldKk_formatXK]; rfl)
theorem Laws.TableRow.ldVxDt (x : RegNum) : Laws.TableRow.Statement (.ldVxDt x) := (and_F0FF _).trans (by rw [encode, fieldO_formatXK, fieldKk_formatXK]; rfl)
theorem Laws.TableRow.ldVxK (x : RegNum) : Laws.TableRow.Statement (.ldVxK x) := (and_F0FF _).trans (by rw [encode, fieldO_formatXK, fieldKk_formatXK]; rfl)
theorem Laws.TableRow.ldDtVx (x : RegNum) : Laws.TableRow.Statement (.ldDtVx x) := (and_F0FF _).trans (by rw [encode, fieldO_formatXK, fieldKk_formatXK]; rfl)
theorem Laws.TableRow.ldStVx (x : RegNum) : Laws.TableRow.Statement (.ldStVx x) := (and_F0FF _).trans (by rw [encode, fieldO_formatXK, fieldKk_formatXK]; rfl)
theorem Laws.TableRow.addI (x : RegNum) : Laws.TableRow.Statement (.addI x) := (and_F0FF _).trans (by rw [encode, fieldO_formatXK, fieldKk_formatXK]; rfl)
theorem Laws.TableRow.ldF (x : RegNum) : Laws.TableRow.Statement (.ldF x) := (and_F0FF _).trans (by rw [encode, fieldO_formatXK, fieldKk_formatXK]; rfl)
theorem Laws.TableRow.ldB (x : RegNum) : Laws.TableRow.Statement (.ldB x) := (and_F0FF _).trans (by rw [encode, fieldO_formatXK, fieldKk_formatXK]; rfl)
theorem Laws.TableRow.ldMemVx (x : RegNum) : Laws.TableRow.Statement (.ldMemVx x) := (and_F0FF _).trans (by rw [encode, fieldO_formatXK, fieldKk_formatXK]; rfl)
theorem Laws.TableRow.ldVxMem (x : RegNum) : Laws.TableRow.Statement (.ldVxMem x) := (and_F0FF _).trans (by rw [encode, fieldO_formatXK, fieldKk_formatXK]; rfl)

end Sys2Proof
end

