-- ==== Sys2Proof/Laws/Step.lean ====
section
/-! SUPPORT. What a step can do, said once, and how the terms of Sys2Proof/Safety.lean follow from equal fields. -/

namespace Sys2Proof.Machine

/-- Memory that is equal data reads alike. -/
theorem Same.of_mem {s t : State} (h : t.mem = s.mem) : Same .mem s t := fun a => by rw [h]

/-- Register files that are equal data read alike. -/
theorem Same.of_v {s t : State} (h : t.v = s.v) : Same .v s t := fun r => State.readV_congr h r

/-- Framebuffers that are equal data read alike. -/
theorem Same.of_fb {s t : State} (h : t.fb = s.fb) : Same .fb s t := fun px py => by rw [h]

/-- Keypads that are equal data read alike. -/
theorem Same.of_key {s t : State} (h : t.key = s.key) : Same .key s t := fun k => State.keyDown_congr h k

/-- A frame from equal fields: each part is listed or is equal data. -/
theorem UnchangedBut.of_fields {ps : List Part} {s t : State} (hmem : .mem ∈ ps ∨ t.mem = s.mem)
    (hv : .v ∈ ps ∨ t.v = s.v) (hi : .i ∈ ps ∨ t.i = s.i) (hpc : .pc ∈ ps ∨ t.pc = s.pc)
    (hstack : .stack ∈ ps ∨ t.stack = s.stack) (hdt : .dt ∈ ps ∨ t.dt = s.dt) (hst : .st ∈ ps ∨ t.st = s.st)
    (hfb : .fb ∈ ps ∨ t.fb = s.fb) (hkey : .key ∈ ps ∨ t.key = s.key) (hfault : .fault ∈ ps ∨ t.fault = s.fault)
    (hdraws : .draws ∈ ps ∨ t.draws = s.draws) : UnchangedBut ps s t := by
  intro p hp
  cases p with
  | mem => exact Same.of_mem (hmem.resolve_left hp)
  | v => exact Same.of_v (hv.resolve_left hp)
  | i => exact hi.resolve_left hp
  | pc => exact hpc.resolve_left hp
  | stack => exact hstack.resolve_left hp
  | dt => exact hdt.resolve_left hp
  | st => exact hst.resolve_left hp
  | fb => exact Same.of_fb (hfb.resolve_left hp)
  | key => exact Same.of_key (hkey.resolve_left hp)
  | fault => exact hfault.resolve_left hp
  | draws => exact hdraws.resolve_left hp

/-- What the shared fault entry leaves, in the terms of R103 and R104. -/
theorem State.raise_latches (s : State) (c : Cause) (op : Option Word) :
    Latches s (s.raise c op) (kindOf c) op (infoOf c) :=
  ⟨rfl, UnchangedBut.of_fields (.inr rfl) (.inr rfl) (.inr rfl) (.inr rfl) (.inr rfl) (.inr rfl) (.inr rfl) (.inr rfl)
    (.inr rfl) (.inl (by decide)) (.inr rfl)⟩

/-- The fetch and decode of a core that can run (R36, R56). -/
theorem State.fetchDecode_of_fetchable {s : State} (h : s.pc.toNat ≤ 0xFFE) :
    s.fetchDecode = match decode (wordAt s s.pc.toNat) with
      | .unknown => .error (.unknownInstruction (wordAt s s.pc.toNat), some (wordAt s s.pc.toNat))
      | .form i => .ok i := by
  cases hd : decode (wordOf (Memory.read s.mem s.pc.toNat) (Memory.read s.mem (s.pc.toNat + 1))) <;>
    simp only [State.fetchDecode, State.fetch_ok h, wordAt, hd]

/-- The word at any address of a memory in which bytes were written from I on (R43, R46). -/
theorem wordAt_of_writeBytes {s t : State} {bs : List Byte} (h : t.mem = Memory.writeBytes s.mem s.i.toNat bs) (a : Nat) :
    wordAt t a = wordAfterStore s bs a := by
  simp only [wordAt, wordAfterStore, byteAfterStore, h, Memory.read_writeBytes]

/-- Everything a step can do (R56, R104 to R106): stop latched, fault at the fetch, fault at the decode, or execute the
instruction the bytes at PC decode to. -/
theorem step_cases (s : State) :
    (∃ r, s.fault = some r ∧ step s = .fault (.latched r.kind)) ∨
    (s.fault = none ∧ 0xFFE < s.pc.toNat ∧
      step s = .next (s.raise (.addressOutOfRange (max s.pc.toNat 0x1000)) none)) ∨
    (Fetchable s ∧ decode (wordAt s s.pc.toNat) = .unknown ∧
      step s = .next (s.raise (.unknownInstruction (wordAt s s.pc.toNat)) (some (wordAt s s.pc.toNat)))) ∨
    (∃ i, AboutToRun i s ∧ step s = exec i s) := by
  cases hf : s.fault with
  | some r => exact .inl ⟨r, rfl, by simp only [step, hf]⟩
  | none =>
    by_cases hpc : s.pc.toNat ≤ 0xFFE
    · cases hd : decode (wordAt s s.pc.toNat) with
      | unknown =>
        refine .inr (.inr (.inl ⟨⟨hf, hpc⟩, rfl, ?_⟩))
        simp only [step, hf, State.fetchDecode_of_fetchable hpc, hd]
      | form i =>
        refine .inr (.inr (.inr ⟨i, ⟨⟨hf, hpc⟩, hd⟩, ?_⟩))
        simp only [step, hf, State.fetchDecode_of_fetchable hpc, hd]
    · have hpc : 0xFFE < s.pc.toNat := by omega
      refine .inr (.inl ⟨rfl, hpc, ?_⟩)
      simp only [step, hf, State.fetchDecode, State.fetch_error hpc]

end Sys2Proof.Machine
end

