-- ==== Sys2Proof/Tests/Slice0.lean ====
section
/-! SUPPORT. The model's own tests: ill-formed terms, a word of every instruction written bit by bit from
spec/30_encoding.md R50 and R51, single steps whose results are those of spec/95_test_vectors.md (E<n>, V<n>), and for
every statement with hypotheses a state and operands that meet them. -/

namespace Sys2Proof.Machine.Tests

/-! ### Helpers -/

/-- The core at creation, with these registers set. -/
def regs (vs : List (RegNum × Byte)) : State := vs.foldl (fun s p => s.writeV p.1 p.2) State.reset

/-- The core at creation, with this index and these registers. -/
def regsI (i : Word) (vs : List (RegNum × Byte)) : State := (regs vs).setI i

/-- A core with n return addresses on its stack. -/
def deep (n : Nat) : State := { State.reset with stack := List.replicate n 0x202 }

/-- A core whose latch is set, as E7's fault leaves it. -/
def latchedState : State := State.reset.raise .stackUnderflow (some 0x00EE)

/-- A core on which one key is pressed. -/
def pressing (k : RegNum) (vs : List (RegNum × Byte)) : State := (regs vs).writeKey k true

/-- The state an instruction ends in. -/
def after (i : Instr) (s : State) : State :=
  match exec i s with
  | .next t => t
  | .fault _ => s
  | .refused _ => s

/-- The step that fetches the word w answers a next state of which p holds. -/
def steps (w : Nat) (s : State) (p : State → Bool) : Bool :=
  match step (s.withFetchWord 16 w) with
  | .next t => p t
  | .fault _ => false
  | .refused _ => false

/-- The step raises this kind with this info, and PC and the stack are as before it. -/
def raises (w : Nat) (s : State) (kind : FaultKind) (info : FaultInfo) : Bool :=
  steps w s (fun t => decide (t.fault = some { kind := kind, pc := s.pc, opcode := some (tableWord 16 w), info := info } ∧
    t.pc = s.pc ∧ t.stack = s.stack))

/-- The pixels of a framebuffer that are on, row by row. -/
def lit (fb : Frame) : List (Nat × Nat) :=
  (List.finRange 32).flatMap (fun py =>
    (List.finRange 64).filterMap (fun px => if pixel fb px py then some (px.val, py.val) else none))

/-! ### Well-formedness -/

/-- The words 0x00E0 and 0x00EE are CLS and RET, so no SYS has these addresses (R54). -/
theorem test_wellFormed_refuses_sys_cls : (Instr.sys 0x0E0).wellFormed = false := by decide

theorem test_wellFormed_refuses_sys_ret : (Instr.sys 0x0EE).wellFormed = false := by decide

theorem test_wellFormed_accepts_sys : (Instr.sys 0x0E1).wellFormed = true := by decide

/-! ### Decoding: one word of every instruction, bit by bit from R50 and R51 -/

theorem test_decode_sys : decode 0b0000_0001_0010_0011 = .form (.sys 0x123) := by decide

theorem test_decode_cls : decode 0b0000_0000_1110_0000 = .form .cls := by decide

theorem test_decode_ret : decode 0b0000_0000_1110_1110 = .form .ret := by decide

theorem test_decode_jp : decode 0b0001_0010_0000_0110 = .form (.jp 0x206) := by decide

theorem test_decode_call : decode 0b0010_0010_0001_0000 = .form (.call 0x210) := by decide

theorem test_decode_seImm : decode 0b0011_1111_0000_0001 = .form (.seImm 0xF 0x01) := by decide

theorem test_decode_sneImm : decode 0b0100_0011_0001_0001 = .form (.sneImm 3 0x11) := by decide

theorem test_decode_seReg : decode 0b0101_1010_1011_0000 = .form (.seReg 0xA 0xB) := by decide

theorem test_decode_ldImm : decode 0b0110_1010_0000_0010 = .form (.ldImm 0xA 0x02) := by decide

theorem test_decode_addImm : decode 0b0111_1010_0000_0011 = .form (.addImm 0xA 0x03) := by decide

theorem test_decode_ldReg : decode 0b1000_0010_0001_0000 = .form (.ldReg 2 1) := by decide

theorem test_decode_orReg : decode 0b1000_0010_0001_0001 = .form (.orReg 2 1) := by decide

theorem test_decode_andReg : decode 0b1000_0010_0001_0010 = .form (.andReg 2 1) := by decide

theorem test_decode_xorReg : decode 0b1000_0010_0001_0011 = .form (.xorReg 2 1) := by decide

theorem test_decode_addReg : decode 0b1000_0010_0001_0100 = .form (.addReg 2 1) := by decide

theorem test_decode_sub : decode 0b1000_1111_0001_0101 = .form (.sub 0xF 1) := by decide

theorem test_decode_shr : decode 0b1000_0000_0001_0110 = .form (.shr 0 1) := by decide

theorem test_decode_subn : decode 0b1000_0010_0001_0111 = .form (.subn 2 1) := by decide

theorem test_decode_shl : decode 0b1000_1111_0000_1110 = .form (.shl 0xF 0) := by decide

theorem test_decode_sneReg : decode 0b1001_0001_0010_0000 = .form (.sneReg 1 2) := by decide

theorem test_decode_ldI : decode 0b1010_0011_0000_0000 = .form (.ldI 0x300) := by decide

theorem test_decode_jpV0 : decode 0b1011_0011_0000_0000 = .form (.jpV0 0x300) := by decide

theorem test_decode_rnd : decode 0b1100_0011_0000_1111 = .form (.rnd 3 0x0F) := by decide

theorem test_decode_drw : decode 0b1101_0001_0010_0101 = .form (.drw 1 2 5) := by decide

theorem test_decode_skp : decode 0b1110_0111_1001_1110 = .form (.skp 7) := by decide

theorem test_decode_sknp : decode 0b1110_0111_1010_0001 = .form (.sknp 7) := by decide

theorem test_decode_ldVxDt : decode 0b1111_1011_0000_0111 = .form (.ldVxDt 0xB) := by decide

theorem test_decode_ldVxK : decode 0b1111_0101_0000_1010 = .form (.ldVxK 5) := by decide

theorem test_decode_ldDtVx : decode 0b1111_1010_0001_0101 = .form (.ldDtVx 0xA) := by decide

theorem test_decode_ldStVx : decode 0b1111_0010_0001_1000 = .form (.ldStVx 2) := by decide

theorem test_decode_addI : decode 0b1111_0010_0001_1110 = .form (.addI 2) := by decide

theorem test_decode_ldF : decode 0b1111_0011_0010_1001 = .form (.ldF 3) := by decide

theorem test_decode_ldB : decode 0b1111_0011_0011_0011 = .form (.ldB 3) := by decide

theorem test_decode_ldMemVx : decode 0b1111_0010_0101_0101 = .form (.ldMemVx 2) := by decide

theorem test_decode_ldVxMem : decode 0b1111_0010_0110_0101 = .form (.ldVxMem 2) := by decide

/-- V1: big-endian, the word is 0x6A02 and not 0x026A; what follows is left over. -/
theorem test_decodeBytes_order : decodeBytes [0x6A, 0x02, 0x7A] = .form (.ldImm 0xA 0x02) [0x7A] := by decide

theorem test_decodeBytes_short : decodeBytes [0x6A] = .tooShort := by decide

/-- V6 to V10 -/
theorem test_decode_illegal : decode 0x5121 = .unknown ∧ decode 0x9AB3 = .unknown ∧ decode 0x8008 = .unknown ∧
    decode 0x800F = .unknown ∧ decode 0xE0FF = .unknown ∧ decode 0xE09F = .unknown ∧ decode 0xF0FF = .unknown ∧
    decode 0xF000 = .unknown ∧ decode 0xF056 = .unknown := by decide

/-! ### Fetch, faults and control flow -/

/-- V101 -/
theorem test_step_created : raises 0 State.reset .unknownInstruction (.opcode 0x0000) = true := by decide

/-- V3: no opcode is recorded when the fetch faults -/
theorem test_fetch_out_of_range :
    step (State.reset.setPc 0xFFF) = .next ((State.reset.setPc 0xFFF).raise (.addressOutOfRange 0x1000) none) := rfl

/-- V5: an odd PC fetches -/
theorem test_fetch_odd :
    steps 0x6007 (State.reset.setPc 0x201) (fun t => t.readV 0 == 7 && t.pc == 0x203) = true := by decide

/-- V6 -/
theorem test_illegal_word : raises 0x5121 State.reset .unknownInstruction (.opcode 0x5121) = true := by decide

/-- V13 -/
theorem test_latched : step latchedState = .fault (.latched .stackUnderflow) := rfl

/-- V11 -/
theorem test_sys : raises 0x0123 State.reset .unknownInstruction (.opcode 0x0123) = true := by decide

/-- V14 -/
theorem test_jp : steps 0x1206 (State.reset.setPc 0x20A) (fun t => t.pc == 0x206) = true := by decide

/-- V15 -/
theorem test_call :
    steps 0x2210 (State.reset.setPc 0x204) (fun t => t.pc == 0x210 && t.stack == [0x206]) = true := by decide

/-- V16 -/
theorem test_call_overflow : raises 0x2210 (deep 16) .stackOverflow .nothing = true := by decide

/-- V17 -/
theorem test_ret :
    steps 0x00EE { State.reset with stack := [0x206], pc := 0x212 } 
      (fun t => t.pc == 0x206 && t.stack == []) = true := by decide

/-- V18, E7 -/
theorem test_ret_underflow : raises 0x00EE State.reset .stackUnderflow .nothing = true := by decide

/-- V22 -/
theorem test_jpV0 : steps 0xBF00 (regs [(0, 0xFF)]) (fun t => t.pc == 0xFFF) = true := by decide

/-- V21 -/
theorem test_jpV0_range : raises 0xBFFF (regs [(0, 0x01)]) .addressOutOfRange (.address 0x1000) = true := by decide

/-- V23 -/
theorem test_seImm_taken : steps 0x3310 (regs [(3, 0x10)]) (fun t => t.pc == 0x204) = true := by decide

/-- V23 -/
theorem test_seImm_not : steps 0x3311 (regs [(3, 0x10)]) (fun t => t.pc == 0x202) = true := by decide

/-- V24 -/
theorem test_sneImm_taken : steps 0x4311 (regs [(3, 0x10)]) (fun t => t.pc == 0x204) = true := by decide

/-- V24 -/
theorem test_sneImm_not : steps 0x4310 (regs [(3, 0x10)]) (fun t => t.pc == 0x202) = true := by decide

/-- V25 -/
theorem test_seReg_taken :
    steps 0x5AB0 ((regs [(0xA, 5), (0xB, 5)]).setPc 0x208) (fun t => t.pc == 0x20C) = true := by decide

/-- V27 -/
theorem test_sneReg_taken : steps 0x9120 (regs [(1, 1), (2, 2)]) (fun t => t.pc == 0x204) = true := by decide

/-- V28 -/
theorem test_sneReg_same : steps 0x9550 State.reset (fun t => t.pc == 0x202) = true := by decide

/-! ### Register arithmetic and logic -/

/-- V31 -/
theorem test_ldImm : steps 0x6AFF State.reset (fun t => t.readV 0xA == 0xFF && t.pc == 0x202) = true := by decide

/-- V32: no flag -/
theorem test_addImm_wraps :
    steps 0x7001 (regs [(0, 0xFF)]) (fun t => t.readV 0 == 0 && t.readV vf == 0) = true := by decide

/-- V33: VF as an ordinary register -/
theorem test_addImm_vf : steps 0x7F01 (regs [(vf, 1)]) (fun t => t.readV vf == 2) = true := by decide

/-- V34 -/
theorem test_ldReg : steps 0x8010 (regs [(1, 0x7F)]) (fun t => t.readV 0 == 0x7F) = true := by decide

/-- V35 -/
theorem test_orReg :
    steps 0x8011 (regs [(0, 0x0C), (1, 0x03), (vf, 0x55)]) 
      (fun t => t.readV 0 == 0x0F && t.readV vf == 0x55) = true := by decide

/-- V36 -/
theorem test_andReg :
    steps 0x8012 (regs [(0, 0x0C), (1, 0x06), (vf, 0x55)]) 
      (fun t => t.readV 0 == 0x04 && t.readV vf == 0x55) = true := by decide

/-- V36 -/
theorem test_xorReg :
    steps 0x8013 (regs [(0, 0x0C), (1, 0x06), (vf, 0x55)]) 
      (fun t => t.readV 0 == 0x0A && t.readV vf == 0x55) = true := by decide

/-- V39: 255 does not overflow -/
theorem test_addReg_no_carry :
    steps 0x8014 (regs [(0, 0x80), (1, 0x7F), (vf, 7)]) (fun t => t.readV 0 == 0xFF && t.readV vf == 0) = true := by decide

/-- V48: the flag overwrites the result -/
theorem test_addReg_vf : steps 0x8F14 (regs [(vf, 0xC8), (1, 0x64)]) (fun t => t.readV vf == 1) = true := by decide

/-- V40: no borrow when equal -/
theorem test_sub_equal :
    steps 0x8015 (regs [(0, 5), (1, 5)]) (fun t => t.readV 0 == 0 && t.readV vf == 1) = true := by decide

/-- V41 -/
theorem test_sub_borrow :
    steps 0x8015 (regs [(0, 3), (1, 5), (vf, 7)]) (fun t => t.readV 0 == 0xFE && t.readV vf == 0) = true := by decide

/-- V42 -/
theorem test_subn :
    steps 0x8017 (regs [(0, 3), (1, 5)]) (fun t => t.readV 0 == 2 && t.readV vf == 1) = true := by decide

/-- V43 -/
theorem test_subn_borrow :
    steps 0x8017 (regs [(0, 5), (1, 3), (vf, 7)]) (fun t => t.readV 0 == 0xFE && t.readV vf == 0) = true := by decide

/-- V45: Vy is ignored -/
theorem test_shr :
    steps 0x8016 (regs [(0, 5), (1, 0x80)]) (fun t => t.readV 0 == 2 && t.readV vf == 1) = true := by decide

/-- V45 under `SHIFT_SOURCE` = VY -/
theorem test_shr_vy : (shiftRight .vy 0 1 (regs [(0, 5), (1, 0x80)])).readV 0 = 0x40 := by decide

/-- V46 -/
theorem test_shl : steps 0x800E (regs [(0, 0x81)]) (fun t => t.readV 0 == 2 && t.readV vf == 1) = true := by decide

/-- V52 -/
theorem test_shl_vf : steps 0x8F0E (regs [(vf, 0x80)]) (fun t => t.readV vf == 1) = true := by decide

/-- V54: masked by 0x00 every draw gives 0 -/
theorem test_rnd_masked : ∀ r : Byte, r &&& 0x00 = 0 := by decide

/-- V53: one byte is drawn -/
theorem test_rnd_draws : steps 0xC30F State.reset (fun t => t.draws == 1 && t.pc == 0x202) = true := by decide

/-! ### Index and memory transfers -/

/-- V55 -/
theorem test_ldI : steps 0xA300 State.reset (fun t => t.i == 0x300) = true := by decide

/-- V57 -/
theorem test_addI :
    steps 0xF11E (regsI 0xFFE [(1, 1), (vf, 7)]) (fun t => t.i == 0xFFF && t.readV vf == 7) = true := by decide

/-- V58 -/
theorem test_addI_range :
    raises 0xF11E (regsI 0xFFF [(1, 1)]) .addressOutOfRange (.address 0x1000) = true := by decide

/-- V60: the low nibble only -/
theorem test_ldF : steps 0xF029 (regs [(0, 0x1A)]) (fun t => t.i == 0x082) = true := by decide

/-- V61 -/
theorem test_ldB :
    steps 0xF033 (regsI 0x300 [(0, 0xFE)]) (fun t => Memory.readBytes t.mem 0x300 3 == [2, 5, 4]) = true := by decide

/-- V64 -/
theorem test_ldB_range :
    raises 0xF033 (regsI 0xFFE [(0, 0xFF)]) .addressOutOfRange (.address 0x1000) = true := by decide

/-- V65 -/
theorem test_ldMemVx :
    steps 0xF155 (regsI 0xFFE [(0, 1), (1, 2)]) 
      (fun t => Memory.readBytes t.mem 0xFFE 2 == [1, 2] && t.i == 0xFFE) = true := by decide

/-- V66 -/
theorem test_ldMemVx_range :
    raises 0xF255 (regsI 0xFFE [(0, 1), (1, 2), (2, 3)]) .addressOutOfRange (.address 0x1000) = true := by decide

/-- V71: the font is readable -/
theorem test_ldVxMem :
    steps 0xF465 (regsI 0x050 [(5, 9)]) 
      (fun t => (t.readVsTo 5) == [0xF0, 0x90, 0x90, 0x90, 0xF0, 9] && t.i == 0x050) = true := by decide

/-- V69 -/
theorem test_ldVxMem_range : raises 0xFF65 (regsI 0xFF1 []) .addressOutOfRange (.address 0x1000) = true := by decide

/-! ### Display -/

/-- V80, from a framebuffer with a pixel on -/
theorem test_cls :
    steps 0x00E0 { State.reset with fb := (writePixel blankFrame 5 7).1 } 
      (fun t => lit t.fb == [] && t.pc == 0x202) = true := by decide

/-- V76: the start position is taken modulo 64 and 32 -/
theorem test_drw_position :
    steps 0xD011 (regsI 0x050 [(0, 0x44), (1, 0x21), (vf, 7)]) 
      (fun t => lit t.fb == [(4, 1), (5, 1), (6, 1), (7, 1)] && t.readV vf == 0) = true := by decide

/-- R91, R93: the row F0 at column 62 wraps to columns 0 and 1 and turns (0, 0) off -/
theorem test_drw_wraps :
    steps 0xD011 { regsI 0x050 [(0, 62)] with fb := (writePixel blankFrame 0 0).1 } 
      (fun t => lit t.fb == [(1, 0), (62, 0), (63, 0)] && t.readV vf == 1) = true := by decide

/-! ### Timers and keypad -/

/-- V83 -/
theorem test_ldVxDt :
    steps 0xFB07 (State.reset.setDt 0x39) (fun t => t.readV 0xB == 0x39 && t.dt == 0x39) = true := by decide

/-- V84 -/
theorem test_ldDtVx : steps 0xFA15 (regs [(0xA, 0x3C)]) (fun t => t.dt == 0x3C) = true := by decide

/-- V85 -/
theorem test_ldStVx : steps 0xF018 (regs [(0, 2)]) (fun t => t.st == 2 && t.isSoundActive) = true := by decide

/-- V89 -/
theorem test_skp : steps 0xE09E ((pressing 7 [(0, 7)]).setPc 0x208) (fun t => t.pc == 0x20C) = true := by decide

/-- V91 -/
theorem test_skp_range : raises 0xE09E (regs [(0, 0x10)]) .keyIndexOutOfRange (.key 0x10) = true := by decide

/-- V90 -/
theorem test_sknp : steps 0xE0A1 (regs [(0, 7)]) (fun t => t.pc == 0x204) = true := by decide

/-- R99 with Vx = 0x10 -/
theorem test_sknp_range : raises 0xE0A1 (regs [(0, 0x10)]) .keyIndexOutOfRange (.key 0x10) = true := by decide

/-- V92 -/
theorem test_ldVxK_waits :
    steps 0xF50A (regs [(5, 9)]) (fun t => t.pc == 0x200 && t.readV 5 == 9) = true := by decide

/-- V94: with one key pressed the choice is that key, whatever the draw -/
theorem test_ldVxK_stores :
    (after (.ldVxK 5) (pressing 3 [])).pc = 0x202 ∧ (pressing 3 []).pressed = [3] := by decide

/-! ### The host's operations -/

/-- V88 -/
theorem test_tick :
    (((State.reset.setDt 3).setSt 1).tickTimers.tickTimers.dt, ((State.reset.setDt 3).setSt 1).tickTimers.tickTimers.st) = (1, 0) := by decide

/-- V95 -/
theorem test_setKey : ((State.reset.setKey 4 true).setKey 4 false).keyDown 4 = false := by decide

/-- V97 -/
theorem test_load :
    ((latchedState.writeV 3 9).loaded true .preserve [0x12, 0x00]).fault = none ∧
    ((latchedState.writeV 3 9).loaded true .preserve [0x12, 0x00]).readV 3 = 0 ∧
    Memory.readBytes ((latchedState.writeV 3 9).loaded true .preserve [0x12, 0x00]).mem 0x200 2 = [0x12, 0x00] := by decide

/-- V98 under `LOAD_RESIDUE` = preserve: a byte above the ROM stays -/
theorem test_load_residue :
    Memory.read ((State.reset.loaded false .preserve [1, 2, 3]).loaded false .preserve [9]).mem 0x202 = 3 := by decide

/-! ### Witnesses: a state and operands that meet the hypotheses of each statement -/

theorem witness_DecodeReadsEncodedInstruction : (Instr.sys 0x0E1).wellFormed = true ∧ (Instr.sys 0xFFF).wellFormed = true ∧
    (Instr.drw 0xF 0xF 0xF).wellFormed = true := by decide

theorem witness_EncodeGivesDecodedWord :
    decode 0xFF65 = .form (.ldVxMem 0xF) := by decide

theorem witness_IllegalWordsAreThoseListed :
    decodeWith true 0x9FFF = .unknown ∧ decodeWith false 0x9FFF ≠ .unknown ∧ decodeWith false 0x8FFF = .unknown ∧
    decodeWith false 0xE000 = .unknown ∧ decodeWith false 0xFFFF = .unknown := by decide

theorem witness_StepRunsDecodedInstruction :
    AboutToRun (.addReg 0 1) (State.reset.withFetchWord 16 0x8014) :=
  ⟨⟨by decide, by decide⟩, by decide⟩

/-- The last word of memory (V19). -/
theorem witness_StepRunsDecodedInstruction_top :
    AboutToRun (.call 0xF00) ((State.reset.setPc 0xFFE).withFetchWord 16 0x2F00) :=
  ⟨⟨by decide, by decide⟩, by decide⟩

theorem witness_PlacedWordRunsNext :
    decodeTableWord 16 0x00E0 = some .cls := by decide

theorem witness_FetchOutsideMemoryFaults :
    (State.reset.setPc 0xFFF).fault = none ∧ 0xFFE < (State.reset.setPc 0xFFF).pc.toNat ∧
    0xFFE < (State.reset.setPc 0x1002).pc.toNat := by decide

theorem witness_IllegalWordFaults :
    Fetchable (State.reset.withFetchWord 16 0x5121) ∧
    decode (wordAt (State.reset.withFetchWord 16 0x5121) 0x200) = .unknown :=
  ⟨⟨by decide, by decide⟩, by decide⟩

theorem witness_LatchedCoreExecutesNothing :
    ∃ r, latchedState.fault = some r := ⟨_, rfl⟩

theorem witness_RunningStepReturnsOkOrFault :
    State.reset.fault = none := by decide

/-- Also of EachInstructionRaisesItsOwnKind; E7. -/
theorem witness_FaultDiscardsEveryWrite :
    ∃ t r, State.reset.fault = none ∧ exec .ret State.reset = .next t ∧ t.fault = some r ∧
    r.kind = .stackUnderflow :=
  ⟨_, _, rfl, rfl, rfl, rfl⟩

/-- A store that faults (V64). -/
theorem witness_FaultDiscardsEveryWrite_store :
    ∃ t r, (regsI 0xFFE [(0, 0xFF)]).fault = none ∧ exec (.ldB 0) (regsI 0xFFE [(0, 0xFF)]) = .next t ∧
    t.fault = some r := ⟨_, _, rfl, rfl, rfl⟩

theorem witness_OnlyLoadClearsTheLatch :
    ∃ t r, latchedState.fault = some r ∧ respond .tickTimers latchedState = .next (t, .nothing) ∧
    t.fault = some r := ⟨_, _, rfl, rfl, rfl⟩

theorem witness_OnlyLoadClearsTheLatch_load :
    ∃ t, respond (.load []) latchedState = .next (t, .ok) ∧ t.fault = none := ⟨_, rfl, rfl⟩

theorem witness_EachPartHasItsWriters :
    ∃ t, exec (.call 0x300) State.reset = .next t ∧ t.stack ≠ State.reset.stack := ⟨_, rfl, by decide⟩

/-- A raised fault writes the latch and leaves PC. -/
theorem witness_EachPartHasItsWriters_fault :
    ∃ t r, exec .ret State.reset = .next t ∧ t.pc = State.reset.pc ∧ t.fault = some r ∧
    faultKindOf .ret = some r.kind :=
  ⟨_, _, rfl, rfl, rfl, rfl⟩

theorem witness_EachPartHasItsWriters_reg :
    writesReg (.addReg 0 1) vf = true ∧ writesReg (.addReg 0 1) 2 = false ∧ writesReg (.ldVxMem 3) 3 = true ∧
    writesReg (.ldVxMem 3) 4 = false := by decide

theorem witness_OtherInstructionsAdvancePcByTwo :
    ∃ t, writesPc (.ldImm 0 1) = false ∧ State.reset.fault = none ∧ exec (.ldImm 0 1) State.reset = .next t ∧
    t.fault = none := ⟨_, rfl, rfl, rfl, rfl⟩

theorem witness_NoInstructionReadsSoundTimer :
    ∃ t, step ((State.reset.setSt 5).withFetchWord 16 0xF018) = .next t := ⟨_, rfl⟩

theorem witness_StepKeepsInvariant :
    CoreInv State.reset ∧ ∃ t, step State.reset = .next t :=
  ⟨⟨by decide, by decide, by decide, by decide, by decide, by simp [State.reset], by simp [State.reset]⟩, _, rfl⟩

theorem witness_EveryScheduleKeepsInvariant :
    ∃ t replies, respondAll [.setKey 3 true, .step, .tickTimers, .step] State.reset = .next (t, replies) := ⟨_, _, rfl⟩

theorem witness_CanonicalMemoryIsItsReads :
    Memory.wf [(0x050, 0x00), (0x300, 0x01)] ∧ ¬ Memory.wf [(0x300, 0x01), (0x050, 0x00)] ∧
    ¬ Memory.wf [(0x300, 0x00)] := by decide

/-- V0, V1 = 0x12, 0x34 stored at 0x300. -/
def storing : State := regsI 0x300 [(0, 0x12), (1, 0x34)]

/-- A fetch at I, of the two stored bytes. -/
theorem witness_StoreIsSeenByNextFetch :
    ∃ t u : State, storing.fault = none ∧ exec (.ldMemVx 1) storing = .next t ∧ t.fault = none ∧ u.mem = t.mem ∧
    Fetchable u ∧ u.pc = 0x300 ∧ decode (wordAfterStore storing (storing.readVsTo 1) 0x300) = .form (.jp 0x234) :=
  ⟨after (.ldMemVx 1) storing, (after (.ldMemVx 1) storing).setPc 0x300, rfl, rfl, rfl, rfl, ⟨rfl, by decide⟩, rfl, by decide⟩

/-- A fetch of one old and one stored byte, at either end, and of two old bytes. -/
theorem witness_StoreIsSeenByNextFetch_edges :
    wordAfterStore storing (storing.readVsTo 1) 0x2FF = 0x0012 ∧
    wordAfterStore storing (storing.readVsTo 1) 0x301 = 0x3400 ∧
    wordAfterStore storing (storing.readVsTo 0) 0x300 = 0x1200 ∧
    wordAfterStore storing (storing.readVsTo 1) 0x302 = 0x0000 := by decide

/-- Fx33 stores 02 05 04 (V61), and the fetch at I + 1 reads 0504. -/
theorem witness_StoreIsSeenByNextFetch_digits :
    ∃ t, exec (.ldB 0) (regsI 0x300 [(0, 0xFE)]) = .next t ∧ t.fault = none ∧ Fetchable (t.setPc 0x301) ∧
    decode (wordAfterStore (regsI 0x300 [(0, 0xFE)]) (decimalDigits 0xFE) 0x301) = .form (.sys 0x504) :=
  ⟨_, rfl, rfl, ⟨rfl, by decide⟩, by decide⟩

/-- The stored word is illegal (V6). -/
theorem witness_StoreIsSeenByNextFetch_illegal :
    ∃ t, exec (.ldMemVx 1) (regsI 0x300 [(0, 0x51), (1, 0x21)]) = .next t ∧ t.fault = none ∧
    Fetchable (t.setPc 0x300) ∧
    decode (wordAfterStore (regsI 0x300 [(0, 0x51), (1, 0x21)]) [0x51, 0x21] 0x300) = .unknown :=
  ⟨_, rfl, rfl, ⟨rfl, by decide⟩, by decide⟩

theorem witness_RetPopsReturnAddress :
    (deep 2).stack = [0x202] ++ [0x202] ∧ (deep 1).stack = [] ++ [0x202] ∧ (deep 0).stack = [] := by decide

theorem witness_CallPushesReturnAddress :
    (deep 15).stack.length < 16 ∧ 16 ≤ (deep 16).stack.length := by decide

theorem witness_RetUndoesCall :
    ∃ t, (deep 15).stack.length < 16 ∧ exec (.call 0x300) (deep 15) = .next t := ⟨_, by decide, rfl⟩

theorem witness_SkipsOnRegister :
    (1 : Nibble) ≠ 0 := by decide

theorem witness_JpV0AddsRegisterZero :
    (0xF00 : Addr12).toNat + ((regs [(0, 0xFF)]).readV 0).toNat ≤ 0xFFF ∧
    0xFFF < (0xFFF : Addr12).toNat + ((regs [(0, 0x01)]).readV 0).toNat := by decide

theorem witness_ParkedCoreStaysParked :
    Parked (State.reset.withFetchWord 16 0x1200) :=
  ⟨⟨by decide, by decide⟩, by decide⟩

theorem witness_AddAndSubtractWithFlag :
    0xC8 = ((regs [(0, 0xC8), (1, 0x64)]).readV 0).toNat ∧ 0x64 = ((regs [(0, 0xC8), (1, 0x64)]).readV 1).toNat :=
  by decide

theorem witness_ShiftsWithFlag :
    0x05 = ((regs [(0, 0x05), (1, 0x80)]).readV (if ShiftSource.vx = .vx then 0 else 1)).toNat ∧
    0x80 = ((regs [(0, 0x05), (1, 0x80)]).readV (if ShiftSource.vy = .vx then 0 else 1)).toNat := by decide

theorem witness_ArithmeticLaws :
    (∃ t, exec (.addReg 0 1) State.reset = .next t) ∧ (∃ t, exec (.sub 0 1) State.reset = .next t) ∧
    (∃ t, exec (.addImm 0xF 1) State.reset = .next t) ∧ isAlu (.rnd 0 0) = true :=
  ⟨⟨_, rfl⟩, ⟨_, rfl⟩, ⟨_, rfl⟩, rfl⟩

theorem witness_AddIChecksRange :
    (regsI 0xFFE [(1, 1)]).i.toNat + ((regsI 0xFFE [(1, 1)]).readV 1).toNat ≤ 0xFFF ∧
    0xFFF < (regsI 0xFFF [(1, 1)]).i.toNat + ((regsI 0xFFF [(1, 1)]).readV 1).toNat := by decide

theorem witness_LdBWritesDecimalDigits :
    (regsI 0xFFD []).i.toNat + 2 ≤ 0xFFF ∧ 0xFFF < (regsI 0xFFE []).i.toNat + 2 ∧
    0xFFF < (regsI 0xFFFF []).i.toNat + 2 := by decide

theorem witness_LdMemVxStoresRegisters :
    (regsI 0xFFE []).i.toNat + (1 : RegNum).val ≤ 0xFFF ∧ 0xFFF < (regsI 0xFFE []).i.toNat + (2 : RegNum).val := by decide

theorem witness_LdVxMemLoadsRegisters :
    (regsI 0xFF0 []).i.toNat + (0xF : RegNum).val ≤ 0xFFF ∧ 0xFFF < (regsI 0xFF1 []).i.toNat + (0xF : RegNum).val :=
  by decide

/-- u is t itself, which still has its mem and i. -/
theorem witness_LoadGivesBackWhatWasStored :
    ∃ t, storing.i.toNat + (1 : RegNum).val ≤ 0xFFF ∧ exec (.ldMemVx 1) storing = .next t ∧ t.i = storing.i :=
  ⟨_, by decide, rfl, rfl⟩

/-- The clauses at their boundaries: n = 0 (V79), the last byte (V77), one byte beyond it (V78). -/
theorem witness_DrwInvertsCoveredPixels :
    (0 : Nibble).toNat = 0 ∧ (regsI 0xFFF []).i.toNat + (1 : Nibble).toNat - 1 ≤ 0xFFF ∧ (0 < (2 : Nibble).toNat ∧
    0xFFF < (regsI 0xFFF []).i.toNat + (2 : Nibble).toNat - 1) := by decide

/-- V72, V73, with u the state t itself. -/
theorem witness_DrawingTwiceRestoresFramebuffer :
    ∃ t v, (regsI 0x050 []).fault = none ∧ exec (.drw 0 1 1) (regsI 0x050 []) = .next t ∧ t.fault = none ∧
    t.mem = (regsI 0x050 []).mem ∧ t.i = (regsI 0x050 []).i ∧ t.readV 0 = (regsI 0x050 []).readV 0 ∧
    t.readV 1 = (regsI 0x050 []).readV 1 ∧ exec (.drw 0 1 1) t = .next v :=
  ⟨after (.drw 0 1 1) (regsI 0x050 []), _, rfl, rfl, rfl, rfl, rfl, rfl, rfl, rfl⟩

/-- The premise of the last clause: no covered pixel is on before the first draw. -/
theorem witness_DrawingTwiceRestoresFramebuffer_off :
    ∀ px py, SpriteCovers .wrap (regsI 0x050 []) 0 1 1 px py → pixel (regsI 0x050 []).fb px py = false :=
  fun px py _ => by simp [pixel, regsI, regs, State.setI, State.reset]

/-- The font byte 0x20 (R42) has one 1-bit, in column 2, and that pixel is on. -/
def litUnder : State := { regsI 0x055 [] with fb := (writePixel blankFrame 2 0).1 }

/-- By R91 to R93 alone: the first draw turns the pixel off (VF = 1), the second turns it on (VF = 0), although a 1-bit of the
sprite lands on the screen (log 37). -/
theorem witness_DrawingTwiceRestoresFramebuffer_on :
    SpriteCovers .wrap litUnder 0 1 1 2 0 ∧ (after (.drw 0 1 1) litUnder).readV vf = 1 ∧
    (after (.drw 0 1 1) (after (.drw 0 1 1) litUnder)).readV vf = 0 ∧
    lit (after (.drw 0 1 1) (after (.drw 0 1 1) litUnder)).fb = [(2, 0)] :=
  ⟨⟨0, 2, by decide, by decide, by decide, by decide, by decide⟩, by decide, by decide, by decide⟩

theorem witness_SkipsOnKey :
    ((regs [(0, 0xF)]).readV 0).toNat = (0xF : RegNum).val ∧ 0xF < ((regs [(0, 0x10)]).readV 0).toNat := by decide

theorem witness_KeyWaitStoresPressedKey :
    (∃ k, (pressing 3 []).keyDown k = true) ∧ (∀ k, State.reset.keyDown k = false) :=
  ⟨⟨3, by decide⟩, by decide⟩

/-- E9 -/
theorem witness_WaitingCoreKeepsItsState :
    Waiting 0 (State.reset.withFetchWord 16 0xF00A) :=
  ⟨⟨⟨by decide, by decide⟩, by decide⟩, by decide⟩

/-- E5; the first also meets LoadReinitialisesCore. -/
theorem witness_LoadChecksLengthFirst :
    (List.replicate 3584 (0 : Byte)).length ≤ 3584 ∧ 3585 ≤ (List.replicate 3585 (0 : Byte)).length :=
  by simp only [List.length_replicate]; decide

theorem witness_LoadReinitialisesCore :
    ([0x12, 0x00] : List Byte).length ≤ 3584 := by decide

theorem witness_EachInstructionRaisesItsOwnKind :
    ∃ t r, (deep 16).fault = none ∧ exec (.call 0x300) (deep 16) = .next t ∧ t.fault = some r := ⟨_, _, rfl, rfl, rfl⟩

end Sys2Proof.Machine.Tests
end

section
/-! PROOFS. Control transfer (spec/40_control_flow.md R60 to R69): what the moves of PC leave unchanged, the meaning of
the transfers and the skips as one state each, and the obligations O25, O26 and O29. -/

namespace Sys2Proof.Machine

/-! ### Moves of PC and their frames -/

/-- A transfer overwrites the PC that the advance of R56 wrote. -/
@[simp] theorem State.advance_setPc (s : State) (w : Word) : s.advance.setPc w = s.setPc w := rfl

/-- The frame of an instruction that moves PC alone. -/
theorem unchangedBut_setPc (s : State) (w : Word) : UnchangedBut [.pc] s (s.setPc w) :=
  UnchangedBut.of_fields (.inr rfl) (.inr rfl) (.inr rfl) (.inl (by decide)) (.inr rfl) (.inr rfl) (.inr rfl) (.inr rfl)
    (.inr rfl) (.inr rfl) (.inr rfl)

/-- The frame of CALL and RET, which move PC and write the stack. -/
theorem unchangedBut_setPc_stack (s : State) (ws : List Word) (w : Word) :
    UnchangedBut [.pc, .stack] s ({ s with stack := ws }.setPc w) :=
  UnchangedBut.of_fields (.inr rfl) (.inr rfl) (.inr rfl) (.inl (by decide)) (.inl (by decide)) (.inr rfl) (.inr rfl)
    (.inr rfl) (.inr rfl) (.inr rfl) (.inr rfl)

/-- A skip after the advance leaves PC at ipc + 4, none at ipc + 2 (R57, R60). -/
theorem State.advance_skipIf (s : State) (c : Bool) :
    s.advance.skipIf c = s.setPc (if c then s.pc + 4 else s.pc + 2) := by
  have h4 : s.pc + 2 + 2 = s.pc + 4 := BitVec.add_assoc s.pc 2 2
  rw [State.skipIf_eq, State.advance_setPc, State.advance_pc, h4]

/-- A skip on equal bytes (R66, R68). -/
theorem State.advance_skipIf_beq (s : State) (a b : Byte) :
    s.advance.skipIf (a == b) = s.setPc (if a.toNat = b.toNat then s.pc + 4 else s.pc + 2) := by
  simp only [State.advance_skipIf, beq_iff_eq, BitVec.toNat_inj]

/-- A skip on different bytes (R67, R69). -/
theorem State.advance_skipIf_bne (s : State) (a b : Byte) :
    s.advance.skipIf (a != b) = s.setPc (if a.toNat = b.toNat then s.pc + 2 else s.pc + 4) := by
  simp only [State.advance_skipIf, bne_iff_ne, ne_eq, ite_not, BitVec.toNat_inj]

/-- Zero extension keeps the address (R49). -/
@[simp] theorem toNat_zext16 (nnn : Addr12) : (zext16 nnn).toNat = nnn.toNat :=
  BitVec.toNat_setWidth_of_le (by decide)

/-! ### The words -/

theorem decode_formatA_jp (nnn : Addr12) : decode (formatA 0x1 nnn) = .form (.jp nnn) := by
  simp [decode, decodeWith]

theorem decode_formatXK_seImm (x : RegNum) (kk : Byte) : decode (formatXK 0x3 x kk) = .form (.seImm x kk) := by
  simp [decode, decodeWith]

theorem decode_formatXK_sneImm (x : RegNum) (kk : Byte) : decode (formatXK 0x4 x kk) = .form (.sneImm x kk) := by
  simp [decode, decodeWith]

/-! ### The meanings -/

/-- RET with a return address on top of the stack (R62). -/
theorem exec_ret_of_stack {s : State} {ws : List Word} {w : Word} (h : s.stack = ws ++ [w]) :
    exec .ret s = .next ({ s with stack := ws }.setPc w) := by
  have hpop : s.advance.pop = .ok (w, { s.advance with stack := ws }) := State.pop_ok h
  simp only [exec, execRet, hpop, attempt_ok]
  rfl

/-- RET with an empty stack (R21, R62). -/
theorem exec_ret_of_empty {s : State} (h : s.stack = []) :
    exec .ret s = .next (s.raise .stackUnderflow (some (encode .ret))) := by
  have hpop : s.advance.pop = .error .stackUnderflow := State.pop_error h
  simp only [exec, execRet, hpop, attempt_error]

/-- JP nnn (R63). -/
theorem exec_jp (nnn : Addr12) (s : State) : exec (.jp nnn) s = .next (s.setPc (zext16 nnn)) := rfl

/-- SE Vx, kk (R66). -/
theorem exec_seImm (x : RegNum) (kk : Byte) (s : State) :
    exec (.seImm x kk) s = .next (s.setPc (if (s.readV x).toNat = kk.toNat then s.pc + 4 else s.pc + 2)) := by
  simp only [exec, execSeImm, State.advance_skipIf_beq]

/-- SNE Vx, kk (R67). -/
theorem exec_sneImm (x : RegNum) (kk : Byte) (s : State) :
    exec (.sneImm x kk) s = .next (s.setPc (if (s.readV x).toNat = kk.toNat then s.pc + 2 else s.pc + 4)) := by
  simp only [exec, execSneImm, State.advance_skipIf_bne]

/-! ### The obligations -/

/-- Settles O25: `pop` gives the top entry as the next PC, and on an empty stack the step ends in the shared fault entry. -/
theorem retPopsReturnAddress : Obligations.RetPopsReturnAddress := by
  refine ⟨by decide, fun s => ⟨fun ws w h => ?_, fun h => ?_⟩⟩
  · exact ⟨_, exec_ret_of_stack h, rfl, rfl, unchangedBut_setPc_stack s ws w⟩
  · exact ⟨_, _, exec_ret_of_empty h, State.raise_fault s .stackUnderflow _, rfl⟩

/-- Settles O26: a jump is one move of PC, to the zero-extended address. -/
theorem jpSetsPc : Obligations.JpSetsPc := fun nnn s =>
  ⟨decode_formatA_jp nnn, _, exec_jp nnn s, toNat_zext16 nnn, unchangedBut_setPc s _⟩

/-- Settles O29: each skip is one move of PC, by 4 or by 2 as the bytes compare. -/
theorem skipsOnImmediate : Obligations.SkipsOnImmediate := fun x kk s =>
  ⟨decode_formatXK_seImm x kk, decode_formatXK_sneImm x kk,
    ⟨_, exec_seImm x kk s, rfl, unchangedBut_setPc s _⟩,
    ⟨_, exec_sneImm x kk s, rfl, unchangedBut_setPc s _⟩⟩

end Sys2Proof.Machine
end

section
/-! PROOFS. Immediate load and add (spec/41_alu.md R72, R73): the state that an instruction writing Vx and advancing PC
leaves, what it reads and keeps, and the obligation O33. -/

namespace Sys2Proof.Machine

/-! ### A register write with the advance -/

/-- The frame of an instruction that writes one register and advances PC. -/
theorem unchangedBut_advance_writeV (s : State) (x : RegNum) (b : Byte) :
    UnchangedBut [.v, .pc] s (s.advance.writeV x b) :=
  UnchangedBut.of_fields (.inr rfl) (.inl (by decide)) (.inr rfl) (.inl (by decide)) (.inr rfl) (.inr rfl) (.inr rfl)
    (.inr rfl) (.inr rfl) (.inr rfl) (.inr rfl)

/-- The registers after the advance and one write: Vx is the written byte, every other one is kept. -/
theorem State.readV_advance_writeV (s : State) (x r : RegNum) (b : Byte) :
    (s.advance.writeV x b).readV r = if r = x then b else s.readV r := by
  rw [State.readV_writeV, State.readV_advance]

/-- An 8-bit sum written to Vx reads as the sum modulo 256 (R73). -/
theorem State.toNat_readV_advance_writeV_add (s : State) (x r : RegNum) (a b : Byte) :
    ((s.advance.writeV x (a + b)).readV r).toNat =
      if r = x then (a.toNat + b.toNat) % 256 else (s.readV r).toNat := by
  rw [State.readV_advance_writeV, apply_ite BitVec.toNat, BitVec.toNat_add]

/-! ### The words -/

theorem decode_formatXK_ldImm (x : RegNum) (kk : Byte) : decode (formatXK 0x6 x kk) = .form (.ldImm x kk) := by
  simp [decode, decodeWith]

theorem decode_formatXK_addImm (x : RegNum) (kk : Byte) : decode (formatXK 0x7 x kk) = .form (.addImm x kk) := by
  simp [decode, decodeWith]

/-! ### The meanings -/

/-- LD Vx, kk (R72). -/
theorem exec_ldImm (x : RegNum) (kk : Byte) (s : State) : exec (.ldImm x kk) s = .next (s.advance.writeV x kk) := rfl

/-- ADD Vx, kk (R73): one register write, so VF is written only as Vx. -/
theorem exec_addImm (x : RegNum) (kk : Byte) (s : State) :
    exec (.addImm x kk) s = .next (s.advance.writeV x (s.readV x + kk)) := rfl

/-! ### The obligation -/

/-- Settles O33: each instruction is one write to Vx on the advanced state, of kk or of the 8-bit sum. -/
theorem immediateLoadAndAdd : Obligations.ImmediateLoadAndAdd := fun x kk s =>
  ⟨decode_formatXK_ldImm x kk, decode_formatXK_addImm x kk,
    ⟨_, exec_ldImm x kk s, fun r => s.readV_advance_writeV x r kk, rfl, unchangedBut_advance_writeV s x _⟩,
    ⟨_, exec_addImm x kk s, fun r => s.toNat_readV_advance_writeV_add x r (s.readV x) kk, rfl,
      unchangedBut_advance_writeV s x _⟩⟩

end Sys2Proof.Machine
end

section
/-! PROOFS. Index load (spec/42_index_memory.md R84): the frame of an instruction that writes I and advances PC, and the
obligation O40. -/

namespace Sys2Proof.Machine

/-- The frame of an instruction that writes I and advances PC. -/
theorem unchangedBut_advance_setI (s : State) (w : Word) : UnchangedBut [.i, .pc] s (s.advance.setI w) :=
  UnchangedBut.of_fields (.inr rfl) (.inr rfl) (.inl (by decide)) (.inl (by decide)) (.inr rfl) (.inr rfl) (.inr rfl)
    (.inr rfl) (.inr rfl) (.inr rfl) (.inr rfl)

theorem decode_formatA_ldI (nnn : Addr12) : decode (formatA 0xA nnn) = .form (.ldI nnn) := by
  simp [decode, decodeWith]

/-- LD I, nnn (R84): no check of the address, so nnn may point anywhere. -/
theorem exec_ldI (nnn : Addr12) (s : State) : exec (.ldI nnn) s = .next (s.advance.setI (zext16 nnn)) := rfl

/-- Settles O40: the instruction is one write of the zero-extended address to I on the advanced state. -/
theorem ldISetsIndex : Obligations.LdISetsIndex := fun nnn s =>
  ⟨decode_formatA_ldI nnn, _, exec_ldI nnn s, toNat_zext16 nnn, rfl, unchangedBut_advance_setI s _⟩

end Sys2Proof.Machine
end

section
/-! PROOFS. Clear screen (spec/43_display.md R90): the frame of an instruction that writes the framebuffer and advances
PC, and the obligation O47. -/

namespace Sys2Proof.Machine

/-- The frame of an instruction that writes the framebuffer and advances PC, the registers (VF too) kept. -/
theorem unchangedBut_advance_fb (s : State) (fb : Frame) : UnchangedBut [.fb, .pc] s { s.advance with fb := fb } :=
  UnchangedBut.of_fields (.inr rfl) (.inr rfl) (.inr rfl) (.inl (by decide)) (.inr rfl) (.inr rfl) (.inr rfl)
    (.inl (by decide)) (.inr rfl) (.inr rfl) (.inr rfl)

/-- CLS (R90): the blank framebuffer, whatever the screen held. -/
theorem exec_cls (s : State) : exec .cls s = .next { s.advance with fb := blankFrame } := rfl

/-- Settles O47: CLS puts the blank framebuffer, whose pixels are all off, into the advanced state. -/
theorem clsClearsFramebuffer : Obligations.ClsClearsFramebuffer :=
  ⟨by decide, fun s => ⟨_, exec_cls s, pixel_blankFrame, State.advance_pc s, unchangedBut_advance_fb s blankFrame⟩⟩

end Sys2Proof.Machine
end

section
/-! PROOFS. The timer tick and the two views (spec/60_exceptions.md R112, R115, R116): what a tick makes of one timer,
the state it leaves, and the obligations O54 and O56. -/

namespace Sys2Proof.Machine

/-! ### A tick -/

/-- A ticked timer reads as one less in the naturals, where the subtraction stops at 0 (R22, R112). -/
theorem toNat_ticked (b : Byte) : (ticked b).toNat = b.toNat - 1 := by
  unfold ticked
  split
  case isTrue hpos => exact BitVec.toNat_sub_of_le (BitVec.le_def.mpr hpos)
  case isFalse hzero => omega

@[simp] theorem State.tickTimers_dt (s : State) : s.tickTimers.dt = ticked s.dt := rfl

@[simp] theorem State.tickTimers_st (s : State) : s.tickTimers.st = ticked s.st := rfl

/-- The frame of a tick, which writes the two timers. -/
theorem unchangedBut_tickTimers (s : State) : UnchangedBut [.dt, .st] s s.tickTimers :=
  UnchangedBut.of_fields (.inr rfl) (.inr rfl) (.inr rfl) (.inr rfl) (.inr rfl) (.inl (by decide)) (.inl (by decide))
    (.inr rfl) (.inr rfl) (.inr rfl) (.inr rfl)

/-! ### The calls -/

/-- `tick_timers` (R112): no fault and no reply, on a latched core too. -/
theorem respond_tickTimers (s : State) : respond .tickTimers s = .next (s.tickTimers, .nothing) := rfl

/-- `framebuffer_view` (R115). -/
theorem respond_framebufferView (s : State) : respond .framebufferView s = .next (s, .frame s.fb) := rfl

/-- `is_sound_active` (R116). -/
theorem respond_isSoundActive (s : State) : respond .isSoundActive s = .next (s, .sound s.isSoundActive) := rfl

/-- The sound is on exactly while ST > 0 (R116). -/
theorem State.isSoundActive_iff (s : State) : s.isSoundActive = true ↔ 0 < s.st.toNat := decide_eq_true_iff

/-! ### The obligations -/

/-- Settles O54: a tick writes the two ticked timers, each a function of its own old value, and nothing else. -/
theorem tickCountsTimersDown : Obligations.TickCountsTimersDown := by
  intro s
  refine ⟨_, respond_tickTimers s, ?_, ?_, unchangedBut_tickTimers s⟩
  · rw [State.tickTimers_dt, toNat_ticked]
  · rw [State.tickTimers_st, toNat_ticked]

/-- Settles O56: both views answer from the state they leave in place, and the sound view's Boolean decides ST > 0. -/
theorem viewsReadWithoutEffect : Obligations.ViewsReadWithoutEffect := fun s =>
  ⟨respond_framebufferView s, _, respond_isSoundActive s, s.isSoundActive_iff⟩

end Sys2Proof.Machine
end

section
/-! PROOFS. The load of a ROM (spec/70_reset_and_hazards.md R122 to R124): the bytes a load writes, its length check, the
replies of the call, and the obligation O57. -/

namespace Sys2Proof.Machine

/-! ### The image -/

theorem maxRom_eq : Config.maxRom = 3584 := rfl

/-- The image begins with the ROM, whatever is left above it (R124). -/
theorem prefix_loadImage (residue : LoadResidue) (rom : List Byte) : rom <+: loadImage residue rom := by
  cases residue with
  | preserve => exact List.prefix_refl rom
  | zero => exact List.prefix_append rom _

/-- A loaded ROM reads back byte by byte from 0x200 on, for every value of the two OPEN parameters (R122, R124). -/
theorem State.read_loaded_rom (clearsI : Bool) (residue : LoadResidue) (s : State) {rom : List Byte} {k : Nat}
    (hk : k < rom.length) : Memory.read (s.loaded clearsI residue rom).mem (0x200 + k) = rom[k] := by
  have himage := prefix_loadImage residue rom
  have hlen : k < (loadImage residue rom).length := Nat.lt_of_lt_of_le hk himage.length_le
  calc Memory.read (s.loaded clearsI residue rom).mem (0x200 + k)
      = Memory.read (Memory.writeBytes s.mem 0x200 (loadImage residue rom)) (0x200 + k) := rfl
    _ = (loadImage residue rom).getD k 0 := by
      rw [Memory.read_writeBytes, if_pos ⟨by omega, by omega⟩, Nat.add_sub_cancel_left]
    _ = (loadImage residue rom)[k] := List.getD_eq_getElem _ _ hlen
    _ = rom[k] := (himage.getElem hk).symm

/-! ### The length check -/

theorem State.loadWith_ok (clearsI : Bool) (residue : LoadResidue) (s : State) {rom : List Byte}
    (h : rom.length ≤ 3584) : s.loadWith clearsI residue rom = .ok (s.loaded clearsI residue rom) :=
  if_pos (maxRom_eq ▸ h)

theorem State.loadWith_error (clearsI : Bool) (residue : LoadResidue) (s : State) {rom : List Byte}
    (h : 3585 ≤ rom.length) : s.loadWith clearsI residue rom = .error .romTooLarge :=
  if_neg (maxRom_eq ▸ Nat.not_le_of_lt h)

/-! ### The call -/

/-- `load` of a ROM that fits: the loaded state, and `Ok` (R122, R124). -/
theorem respond_load_ok (s : State) {rom : List Byte} (h : rom.length ≤ 3584) :
    respond (.load rom) s = .next (s.loaded Config.loadClearsI Config.loadResidue rom, .ok) := by
  simp only [respond, State.load, State.loadWith_ok _ _ s h]

/-- `load` of a ROM that does not fit: the state the call found, and `RomTooLarge` (R122, R123). -/
theorem respond_load_romTooLarge (s : State) {rom : List Byte} (h : 3585 ≤ rom.length) :
    respond (.load rom) s = .next (s, .romTooLarge) := by
  simp only [respond, State.load, State.loadWith_error _ _ s h]

/-! ### The obligation -/

/-- Settles O57: the length decides between the loaded state, whose memory holds the ROM from 0x200 on, and the state the
call found. -/
theorem loadChecksLengthFirst : Obligations.LoadChecksLengthFirst := fun _ s =>
  ⟨fun hfits => ⟨_, respond_load_ok s hfits, fun _ hk => s.read_loaded_rom Config.loadClearsI Config.loadResidue hk⟩,
    fun hlong => respond_load_romTooLarge s hlong⟩

end Sys2Proof.Machine
end

section
/-! PROOFS. The decoder and the encoder (spec/30_encoding.md R49 to R55): the rows of the opcode map, the two round trips,
the illegal words, and the obligations O1, O2, O3 and O4. -/

namespace Sys2Proof.Machine

/-! ### The rows of the opcode map -/

theorem decode_formatA_call (nnn : Addr12) : decode (formatA 0x2 nnn) = .form (.call nnn) := by
  simp [decode, decodeWith]

theorem decode_formatA_jpV0 (nnn : Addr12) : decode (formatA 0xB nnn) = .form (.jpV0 nnn) := by
  simp [decode, decodeWith]

theorem decode_formatXK_rnd (x : RegNum) (kk : Byte) : decode (formatXK 0xC x kk) = .form (.rnd x kk) := by
  simp [decode, decodeWith]

theorem decode_formatXYN_drw (x y : RegNum) (n : Nibble) : decode (formatXYN 0xD x y n) = .form (.drw x y n) := by
  simp [decode, decodeWith]

/-- The row of SE Vx, Vy, where the low nibble counts only under `STRICT_LOW_NIBBLE` = true (R52, R68). -/
theorem decodeWith_formatXYN_5 (strict : Bool) (x y : RegNum) (n : Nibble) :
    decodeWith strict (formatXYN 0x5 x y n) = if n = 0 || !strict then .form (.seReg x y) else .unknown := by
  simp [decodeWith]

/-- The row of SNE Vx, Vy (R52, R69). -/
theorem decodeWith_formatXYN_9 (strict : Bool) (x y : RegNum) (n : Nibble) :
    decodeWith strict (formatXYN 0x9 x y n) = if n = 0 || !strict then .form (.sneReg x y) else .unknown := by
  simp [decodeWith]

theorem decode_formatXYN_8 (x y : RegNum) (n : Nibble) : decode (formatXYN 0x8 x y n) = decode8 x y n := by
  simp [decode, decodeWith]

theorem decode_formatXK_E (x : RegNum) (kk : Byte) : decode (formatXK 0xE x kk) = decodeE x kk := by
  simp [decode, decodeWith]

theorem decode_formatXK_F (x : RegNum) (kk : Byte) : decode (formatXK 0xF x kk) = decodeF x kk := by
  simp [decode, decodeWith]

/-- The row of major opcode 0: SYS, but for the words of CLS and RET (R54, R61). -/
theorem decode_formatA_0 (nnn : Addr12) : decode (formatA 0x0 nnn) =
    if formatA 0x0 nnn = 0x00E0 then .form .cls
    else if formatA 0x0 nnn = 0x00EE then .form .ret else .form (.sys nnn) := by
  simp [decode, decodeWith]

/-- A word of format A determines its address (R50). -/
theorem formatA_injective (o : Nibble) : Function.Injective (formatA o) := fun a b h => by
  rw [← fieldNnn_formatA o a, h, fieldNnn_formatA]

theorem decode_formatA_sys {nnn : Addr12} (hcls : nnn ≠ 0x0E0) (hret : nnn ≠ 0x0EE) :
    decode (formatA 0x0 nnn) = .form (.sys nnn) := by
  have h1 : formatA 0x0 nnn ≠ 0x00E0 := fun e => hcls (formatA_injective 0x0 e)
  have h2 : formatA 0x0 nnn ≠ 0x00EE := fun e => hret (formatA_injective 0x0 e)
  rw [decode_formatA_0, if_neg h1, if_neg h2]

/-! ### Decoding what was encoded -/

/-- Settles O1: form by form, by the row of the opcode map the form's word stands in. -/
theorem decodeReadsEncodedInstruction : Obligations.DecodeReadsEncodedInstruction := by
  intro i hwf
  cases i with
  | sys nnn =>
    have hne : nnn ≠ 0x0E0 ∧ nnn ≠ 0x0EE := by simpa [Instr.wellFormed] using hwf
    exact decode_formatA_sys hne.1 hne.2
  | cls => decide
  | ret => decide
  | jp nnn => exact decode_formatA_jp nnn
  | call nnn => exact decode_formatA_call nnn
  | ldI nnn => exact decode_formatA_ldI nnn
  | jpV0 nnn => exact decode_formatA_jpV0 nnn
  | seImm x kk => exact decode_formatXK_seImm x kk
  | sneImm x kk => exact decode_formatXK_sneImm x kk
  | ldImm x kk => exact decode_formatXK_ldImm x kk
  | addImm x kk => exact decode_formatXK_addImm x kk
  | rnd x kk => exact decode_formatXK_rnd x kk
  | seReg x y => exact decodeWith_formatXYN_5 true x y 0
  | sneReg x y => exact decodeWith_formatXYN_9 true x y 0
  | drw x y n => exact decode_formatXYN_drw x y n
  | ldReg x y | orReg x y | andReg x y | xorReg x y | addReg x y | sub x y | shr x y | subn x y | shl x y =>
    exact decode_formatXYN_8 x y _
  | skp x | sknp x => exact decode_formatXK_E x _
  | ldVxDt x | ldVxK x | ldDtVx x | ldStVx x | addI x | ldF x | ldB x | ldMemVx x | ldVxMem x =>
    exact decode_formatXK_F x _

/-! ### Encoding what was decoded -/

/-- The meaning of a word of the 8xy_ row is encoded with the nibble that gave it. -/
theorem encode_of_decode8 {x y : RegNum} {n : Nibble} {i : Instr} (h : decode8 x y n = .form i) :
    encode i = formatXYN 0x8 x y n ∧ i.wellFormed = true := by
  unfold decode8 at h
  split at h <;> cases h <;> exact ⟨rfl, rfl⟩

/-- The meaning of a word of the Ex__ row is encoded with the byte that gave it. -/
theorem encode_of_decodeE {x : RegNum} {kk : Byte} {i : Instr} (h : decodeE x kk = .form i) :
    encode i = formatXK 0xE x kk ∧ i.wellFormed = true := by
  unfold decodeE at h
  split at h <;> cases h <;> exact ⟨rfl, rfl⟩

/-- The meaning of a word of the Fx__ row is encoded with the byte that gave it. -/
theorem encode_of_decodeF {x : RegNum} {kk : Byte} {i : Instr} (h : decodeF x kk = .form i) :
    encode i = formatXK 0xF x kk ∧ i.wellFormed = true := by
  unfold decodeF at h
  split at h <;> cases h <;> exact ⟨rfl, rfl⟩

/-- The meaning of a word of major opcode 0 is encoded as that word, and is SYS only for the addresses R61 leaves it. -/
theorem encode_of_decode_0 {op : Word} {i : Instr} (ho : fieldO op = 0x0)
    (h : (if op = 0x00E0 then .form .cls else if op = 0x00EE then .form .ret else .form (.sys (fieldNnn op))) =
      Decoded.form i) : encode i = op ∧ i.wellFormed = true := by
  have hop : formatA 0x0 (fieldNnn op) = op := by rw [← ho]; exact formatA_fields op
  split at h
  case isTrue hcls => cases h; exact ⟨hcls.symm, rfl⟩
  case isFalse hcls =>
    split at h
    case isTrue hret => cases h; exact ⟨hret.symm, rfl⟩
    case isFalse hret =>
      cases h
      have h1 : fieldNnn op ≠ 0x0E0 := fun e => hcls (by rw [← hop, e]; rfl)
      have h2 : fieldNnn op ≠ 0x0EE := fun e => hret (by rw [← hop, e]; rfl)
      exact ⟨hop, by simp only [Instr.wellFormed, bne_iff_ne.mpr h1, bne_iff_ne.mpr h2, Bool.and_self]⟩

/-- The meaning of a word of the 5xy_ or the 9xy_ row is encoded with the low nibble 0, the one the strict decoder
takes. -/
theorem encode_of_strict_row {x y : RegNum} {n : Nibble} {i j : Instr} {o : Nibble}
    (hj : encode j = formatXYN o x y 0x0 ∧ j.wellFormed = true)
    (h : (if n = 0 || !true then .form j else .unknown) = Decoded.form i) :
    encode i = formatXYN o x y n ∧ i.wellFormed = true := by
  by_cases hn : n = 0
  · subst hn
    cases h
    exact hj
  · simp only [hn, decide_false, Bool.not_true, Bool.or_false, Bool.false_eq_true, if_false, reduceCtorEq] at h

/-- Settles O2: row by row of the opcode map, the fields the decoder read make the word again. -/
theorem encodeGivesDecodedWord : Obligations.EncodeGivesDecodedWord := by
  intro op i h
  have hA := formatA_fields op
  have hXK := formatXK_fields op
  have hXYN := formatXYN_fields op
  simp only [decode, decodeWith, Params.strictLowNibble] at h
  split at h
  case h_1 ho => exact encode_of_decode_0 ho h
  case h_2 ho | h_3 ho | h_11 ho | h_12 ho => rw [ho] at hA; cases h; exact ⟨hA, rfl⟩
  case h_4 ho | h_5 ho | h_7 ho | h_8 ho | h_13 ho => rw [ho] at hXK; cases h; exact ⟨hXK, rfl⟩
  case h_14 ho => rw [ho] at hXYN; cases h; exact ⟨hXYN, rfl⟩
  case h_6 ho | h_10 ho =>
    rw [ho] at hXYN
    rw [← hXYN]
    exact encode_of_strict_row ⟨rfl, rfl⟩ h
  case h_9 ho => rw [ho] at hXYN; rw [← hXYN]; exact encode_of_decode8 h
  case h_15 ho => rw [ho] at hXK; rw [← hXK]; exact encode_of_decodeE h
  case h_16 =>
    have ho : fieldO op = 0xF#4 := by
      simp only [imp_false, ← BitVec.toNat_inj, BitVec.toNat_ofNat] at *
      omega
    rw [ho] at hXK; rw [← hXK]; exact encode_of_decodeF h

/-! ### The illegal words -/

theorem toNat_fieldO (op : Word) : (fieldO op).toNat = op.toNat / 0x1000 := by
  have := op.isLt
  simp only [fieldO, BitVec.extractLsb_toNat, Nat.shiftRight_eq_div_pow]
  omega

theorem toNat_fieldN (op : Word) : (fieldN op).toNat = op.toNat % 0x10 := by
  simp [fieldN, BitVec.extractLsb_toNat]

theorem toNat_fieldKk (op : Word) : (fieldKk op).toNat = op.toNat % 0x100 := by
  simp [fieldKk, BitVec.extractLsb_toNat]

/-- The low nibbles the 8xy_ row leaves illegal (R53). -/
theorem decode8_eq_unknown_iff (x y : RegNum) (n : Nibble) :
    decode8 x y n = .unknown ↔ n.toNat ∈ [0x8, 0x9, 0xA, 0xB, 0xC, 0xD, 0xF] := by
  unfold decode8
  split
  case h_10 =>
    simp only [imp_false, ← BitVec.toNat_inj, BitVec.toNat_ofNat] at *
    simp only [true_iff, List.mem_cons, List.not_mem_nil, or_false]
    omega
  all_goals exact iff_of_false nofun (by decide)

/-- The low bytes the Ex__ row leaves illegal (R53). -/
theorem decodeE_eq_unknown_iff (x : RegNum) (kk : Byte) :
    decodeE x kk = .unknown ↔ kk.toNat ∉ [0x9E, 0xA1] := by
  unfold decodeE
  split
  case h_3 =>
    simp only [imp_false, ← BitVec.toNat_inj, BitVec.toNat_ofNat] at *
    simp only [true_iff, List.mem_cons, List.not_mem_nil, or_false]
    omega
  all_goals exact iff_of_false nofun (by decide)

/-- The low bytes the Fx__ row leaves illegal (R53). -/
theorem decodeF_eq_unknown_iff (x : RegNum) (kk : Byte) :
    decodeF x kk = .unknown ↔ kk.toNat ∉ [0x07, 0x0A, 0x15, 0x18, 0x1E, 0x29, 0x33, 0x55, 0x65] := by
  unfold decodeF
  split
  case h_10 =>
    simp only [imp_false, ← BitVec.toNat_inj, BitVec.toNat_ofNat] at *
    simp only [true_iff, List.mem_cons, List.not_mem_nil, or_false]
    omega
  all_goals exact iff_of_false nofun (by decide)

/-- Settles O3: the major opcode selects a row of the map, and each row leaves illegal what R53 lists for it. -/
theorem illegalWordsAreThoseListed : Obligations.IllegalWordsAreThoseListed := by
  intro strict op
  simp only [← toNat_fieldO, ← toNat_fieldN, ← toNat_fieldKk, decodeWith]
  split
  case h_6 ho | h_10 ho =>
    have hn : (fieldN op).toNat ≠ 0 ↔ ¬fieldN op = 0 := not_congr (BitVec.toNat_inj (y := 0))
    by_cases h0 : fieldN op = 0 <;> cases strict <;> simp [ho, hn, h0]
  case h_9 ho => rw [decode8_eq_unknown_iff]; simp [ho]
  case h_15 ho => rw [decodeE_eq_unknown_iff]; simp [ho]
  case h_16 =>
    have ho : fieldO op = 0xF#4 := by
      simp only [imp_false, ← BitVec.toNat_inj, BitVec.toNat_ofNat] at *
      omega
    rw [decodeF_eq_unknown_iff]; simp [ho]
  case h_1 ho => simp only [ho]; split_ifs <;> simp
  all_goals rename_i ho; simp [ho]

/-! ### Single words -/

/-- Settles O4: the decoder runs on each of the words. -/
theorem specWordsDecode : Obligations.SpecWordsDecode := by
  unfold Obligations.SpecWordsDecode
  decide

end Sys2Proof.Machine
end

section
/-! PROOFS. One call of `step` (spec/30_encoding.md R56, spec/60_exceptions.md R104, R105): what it answers in each of
the four cases of `step_cases`, and the obligations O5 to O9. -/

namespace Sys2Proof.Machine

/-! ### The four answers of a step -/

/-- A latched core stops with the latched kind (R105). -/
theorem step_of_latched {s : State} {r : FaultRecord} (h : s.fault = some r) : step s = .fault (.latched r.kind) := by
  simp only [step, h]

/-- A fetch outside memory raises without an opcode (R34, R56). -/
theorem step_of_fetch_outside {s : State} (hf : s.fault = none) (hpc : 0xFFE < s.pc.toNat) :
    step s = .next (s.raise (.addressOutOfRange (max s.pc.toNat 0x1000)) none) := by
  simp only [step, hf, State.fetchDecode, State.fetch_error hpc]

/-- An illegal word raises with the word (R53, R56). -/
theorem step_of_illegal {s : State} (hs : Fetchable s) (hd : decode (wordAt s s.pc.toNat) = .unknown) :
    step s = .next (s.raise (.unknownInstruction (wordAt s s.pc.toNat)) (some (wordAt s s.pc.toNat))) := by
  simp only [step, hs.1, State.fetchDecode_of_fetchable hs.2, hd]

/-- A legal word is executed (R56). -/
theorem step_of_aboutToRun {i : Instr} {s : State} (h : AboutToRun i s) : step s = exec i s := by
  obtain ⟨⟨hf, hpc⟩, hd⟩ := h
  simp only [step, hf, State.fetchDecode_of_fetchable hpc, hd]

/-! ### A placed word -/

/-- The place of the next fetch can be fetched from (R34, R40). -/
theorem State.fetchPlace_le (s : State) : s.fetchPlace.toNat ≤ 0xFFE := by
  unfold State.fetchPlace
  split
  · assumption
  · decide

/-- The placed word is the word at PC (R36). -/
theorem State.wordAt_placeWord (s : State) (op : Word) : wordAt (s.placeWord op) (s.placeWord op).pc.toNat = op := by
  simp only [wordAt, State.placeWord_mem, State.placeWord_pc, Memory.read_writeBytes, bytesOf, List.length_cons,
    List.length_nil]
  simp [wordOf_bytes]

/-- An instruction of 16 bits is decoded from the bytes of its word as from the word (R36, R48). -/
theorem decode_of_decodeTableWord {w : Nat} {i : Instr} (h : decodeTableWord 16 w = some i) :
    decode (tableWord 16 w) = .form i := by
  simp only [decodeTableWord, bytesOf, decodeBytes, wordOf_bytes] at h
  cases hd : decode (tableWord 16 w) with
  | unknown => simp [hd] at h
  | form j => simpa [hd] using h

/-! ### The obligations -/

/-- Settles O5: the decode case of the step. -/
theorem stepRunsDecodedInstruction : Obligations.StepRunsDecodedInstruction := fun _ _ => step_of_aboutToRun

/-- Settles O6: the core with the word placed runs, PC at the word, so its step executes the word's meaning. -/
theorem placedWordRunsNext : Obligations.PlacedWordRunsNext := by
  intro s w i h
  have hfetch : Fetchable (s.withFetchWord 16 w) := ⟨rfl, s.fetchPlace_le⟩
  have hword : wordAt (s.withFetchWord 16 w) (s.withFetchWord 16 w).pc.toNat = tableWord 16 w := s.wordAt_placeWord _
  exact step_of_aboutToRun ⟨hfetch, hword.symm ▸ decode_of_decodeTableWord h⟩

/-- Settles O7: the fetch case of the step, ending in the shared fault entry. -/
theorem fetchOutsideMemoryFaults : Obligations.FetchOutsideMemoryFaults := fun s hf hpc =>
  ⟨_, step_of_fetch_outside hf hpc, s.raise_latches (.addressOutOfRange _) none⟩

/-- Settles O8: the illegal case of the step, ending in the shared fault entry. -/
theorem illegalWordFaults : Obligations.IllegalWordFaults := fun s hs hd =>
  ⟨_, step_of_illegal hs hd, s.raise_latches (.unknownInstruction _) _⟩

/-- Settles O9: the latched case of the step, and the reply the host makes of it. -/
theorem latchedCoreExecutesNothing : Obligations.LatchedCoreExecutesNothing := fun s r h =>
  ⟨step_of_latched h, by simp only [respond, step_of_latched h]⟩

end Sys2Proof.Machine
end

section
/-! PROOFS. Canonical memory (spec/20_memory.md R32; log 10) and the core at creation (spec/10_state.md R30): a canonical
memory is determined by its reads, and the obligations O18, O21 and O22. -/

namespace Sys2Proof.Machine

/-! ### Canonical memory -/

/-- An address without a cell reads as its contents at creation (R30). -/
theorem Memory.read_of_not_listed {m : List Host.Cell} {a : Nat} (h : ∀ c ∈ m, c.1 ≠ a) :
    Memory.read m a = creationByte a := by
  induction m with
  | nil => rfl
  | cons c m ih =>
    have hc : a ≠ c.1 := (h c List.mem_cons_self).symm
    rw [Memory.read, if_neg hc, ih fun d hd => h d (List.mem_cons_of_mem c hd)]

/-- The first cell of a canonical memory has the lowest address that does not read as at creation. -/
theorem Memory.head_le_of_read_ne {k : Nat} {b : Byte} {m : List Host.Cell} (hm : Memory.wf ((k, b) :: m)) {a : Nat}
    (ha : Memory.read ((k, b) :: m) a ≠ creationByte a) : k ≤ a := by
  by_contra hlt
  obtain ⟨hhead, -⟩ := List.pairwise_cons.mp hm.1
  refine ha (Memory.read_of_not_listed fun c hc => ?_)
  rcases List.mem_cons.mp hc with rfl | hc
  · omega
  · have := hhead c hc
    omega

/-- The first cell of a canonical memory does not read as at creation. -/
theorem Memory.read_head_ne {k : Nat} {b : Byte} {m : List Host.Cell} (hm : Memory.wf ((k, b) :: m)) :
    Memory.read ((k, b) :: m) k ≠ creationByte k := by
  rw [Memory.read, if_pos rfl]
  exact hm.2 (k, b) List.mem_cons_self

/-- What the other cells of a canonical memory read as. -/
theorem Memory.read_tail {k : Nat} {b : Byte} {m : List Host.Cell} (hm : Memory.wf ((k, b) :: m)) (a : Nat) :
    Memory.read m a = if a = k then creationByte k else Memory.read ((k, b) :: m) a := by
  by_cases ha : a = k
  · subst ha
    obtain ⟨hhead, -⟩ := List.pairwise_cons.mp hm.1
    rw [if_pos rfl, Memory.read_of_not_listed fun c hc => (hhead c hc).ne']
  · rw [if_neg ha, Memory.read, if_neg ha]

theorem Memory.wf_tail {c : Host.Cell} {m : List Host.Cell} (hm : Memory.wf (c :: m)) : Memory.wf m :=
  ⟨hm.1.tail, fun d hd => hm.2 d (List.mem_cons_of_mem c hd)⟩

/-- A canonical memory with a cell does not read like the empty one. -/
theorem Memory.exists_read_ne_nil {c : Host.Cell} {m : List Host.Cell} (hm : Memory.wf (c :: m)) :
    ∃ a, Memory.read (c :: m) a ≠ Memory.read [] a :=
  ⟨c.1, Memory.read_head_ne hm⟩

/-- Settles O21: cell by cell, the first cells lie at the lowest address that does not read as at creation. -/
theorem canonicalMemoryIsItsReads : Obligations.CanonicalMemoryIsItsReads := by
  intro m
  induction m with
  | nil =>
    intro m' _ hm' hread
    cases m' with
    | nil => rfl
    | cons c m' =>
      obtain ⟨a, ha⟩ := Memory.exists_read_ne_nil hm'
      exact absurd (hread a).symm ha
  | cons c m ih =>
    intro m' hm hm' hread
    obtain ⟨k, b⟩ := c
    cases m' with
    | nil =>
      obtain ⟨a, ha⟩ := Memory.exists_read_ne_nil hm
      exact absurd (hread a) ha
    | cons c' m' =>
      obtain ⟨k', b'⟩ := c'
      have hle : k' ≤ k := Memory.head_le_of_read_ne hm' (hread k ▸ Memory.read_head_ne hm)
      have hge : k ≤ k' := Memory.head_le_of_read_ne hm ((hread k').symm ▸ Memory.read_head_ne hm')
      obtain rfl : k = k' := Nat.le_antisymm hge hle
      have hb : b = b' := by simpa [Memory.read] using hread k
      have htail : m = m' := ih m' (Memory.wf_tail hm) (Memory.wf_tail hm') fun a => by
        rw [Memory.read_tail hm, Memory.read_tail hm', hread a]
      rw [hb, htail]

/-! ### The core at creation -/

theorem length_fontBytes : Params.fontBytes.length = 80 := by decide

/-- What an address holds at creation: the font from 0x050 to 0x09F, and 0 elsewhere (R30, R42). -/
theorem creationByte_eq (a : Nat) :
    creationByte a = if 0x050 ≤ a ∧ a < 0x0A0 then Params.fontBytes.getD (a - 0x050) 0 else 0 := by
  have hbase : Params.fontBase = 0x050 := rfl
  simp only [creationByte, hbase]
  by_cases hlow : 0x050 ≤ a
  · by_cases hhigh : a < 0x0A0
    · rw [if_pos hlow, if_pos ⟨hlow, hhigh⟩]
    · rw [if_pos hlow, if_neg fun h => hhigh h.2]
      exact List.getD_eq_default _ _ (by rw [length_fontBytes]; omega)
  · rw [if_neg hlow, if_neg fun h => hlow h.1]

/-- Settles O18: field by field of the core at creation. -/
theorem resetMeetsInvariant : Obligations.ResetMeetsInvariant where
  canonical := State.reset_mem_wf
  inSpace := by decide
  pcBound := by decide
  iBound := by decide
  depth := by decide
  returns _ hw := absurd hw List.not_mem_nil
  precise _ hr := nomatch hr

/-- Settles O22: field by field of the core at creation, whose memory has no cell. -/
theorem creationValues : Obligations.CreationValues :=
  ⟨creationByte_eq, length_fontBytes, rfl, by decide, rfl, rfl, rfl, rfl, pixel_blankFrame, by decide, rfl⟩

end Sys2Proof.Machine
end

section
/-! PROOFS. Control transfer, the rest (spec/40_control_flow.md R60 to R69): SYS, CALL, the register skips and JP V0, and
the obligations O24, O27, O28, O30, O31 and O32. -/

namespace Sys2Proof.Machine

/-! ### The meanings -/

/-- SYS nnn (R61). -/
theorem exec_sys (nnn : Addr12) (s : State) :
    exec (.sys nnn) s = .next (s.raise (.unknownInstruction (encode (.sys nnn))) (some (encode (.sys nnn)))) := rfl

/-- CALL nnn with room on the stack (R20, R64). -/
theorem exec_call_of_room {s : State} (h : s.stack.length < 16) (nnn : Addr12) :
    exec (.call nnn) s = .next ({ s with stack := s.stack ++ [s.pc + 2] }.setPc (zext16 nnn)) := by
  have hpush : s.advance.push s.advance.pc = .ok { s.advance with stack := s.stack ++ [s.pc + 2] } :=
    State.push_ok (s := s.advance) h _
  simp only [exec, execCall, hpush, attempt_ok]
  rfl

/-- CALL nnn with a full stack (R20, R64). -/
theorem exec_call_of_full {s : State} (h : 16 ≤ s.stack.length) (nnn : Addr12) :
    exec (.call nnn) s = .next (s.raise .stackOverflow (some (encode (.call nnn)))) := by
  have hpush : s.advance.push s.advance.pc = .error .stackOverflow := State.push_error (s := s.advance) h _
  simp only [exec, execCall, hpush, attempt_error]

/-- SE Vx, Vy (R68). -/
theorem exec_seReg (x y : RegNum) (s : State) :
    exec (.seReg x y) s = .next (s.setPc (if (s.readV x).toNat = (s.readV y).toNat then s.pc + 4 else s.pc + 2)) := by
  simp only [exec, execSeReg, State.advance_skipIf_beq]

/-- SNE Vx, Vy (R69). -/
theorem exec_sneReg (x y : RegNum) (s : State) :
    exec (.sneReg x y) s = .next (s.setPc (if (s.readV x).toNat = (s.readV y).toNat then s.pc + 2 else s.pc + 4)) := by
  simp only [exec, execSneReg, State.advance_skipIf_bne]

/-- JP V0, nnn to an address in memory (R65). -/
theorem exec_jpV0_of_le {nnn : Addr12} {s : State} (h : nnn.toNat + (s.readV 0).toNat ≤ 0xFFF) :
    exec (.jpV0 nnn) s = .next (s.setPc (BitVec.ofNat 16 (nnn.toNat + (s.readV 0).toNat))) := by
  simp only [exec, execJpV0, jumpOffset, jumpRegister, Params.jumpOffsetReg, checkedAddress_ok h, attempt_ok,
    State.advance_setPc]

/-- JP V0, nnn to an address outside memory (R65). -/
theorem exec_jpV0_of_gt {nnn : Addr12} {s : State} (h : 0xFFF < nnn.toNat + (s.readV 0).toNat) :
    exec (.jpV0 nnn) s =
      .next (s.raise (.addressOutOfRange (nnn.toNat + (s.readV 0).toNat)) (some (encode (.jpV0 nnn)))) := by
  simp only [exec, execJpV0, jumpOffset, jumpRegister, Params.jumpOffsetReg, checkedAddress_error h, attempt_error]

/-! ### A parked core -/

/-- The low 12 bits of an address in memory are the address. -/
theorem zext16_setWidth {w : Word} (h : w.toNat ≤ 0xFFE) : zext16 (w.setWidth 12) = w := by
  refine BitVec.eq_of_toNat_eq ?_
  rw [toNat_zext16, BitVec.toNat_setWidth, Nat.mod_eq_of_lt (by omega)]

/-! ### The obligations -/

/-- Settles O24: SYS ends in the shared fault entry, and its other policy is the advance of R56 alone. -/
theorem sysRaisesUnknownInstruction : Obligations.SysRaisesUnknownInstruction := fun nnn s =>
  ⟨⟨_, exec_sys nnn s, s.raise_latches (.unknownInstruction _) _⟩, _, rfl, rfl, unchangedBut_setPc s _⟩

/-- Settles O27: `push` takes the return address of the advanced state, or finds 16 entries and ends in the shared fault
entry. -/
theorem callPushesReturnAddress : Obligations.CallPushesReturnAddress := fun nnn s =>
  ⟨decode_formatA_call nnn,
    fun h => ⟨_, exec_call_of_room h nnn, toNat_zext16 nnn, rfl, unchangedBut_setPc_stack s _ _⟩,
    fun h => ⟨_, exec_call_of_full h nnn, s.raise_latches .stackOverflow _⟩⟩

/-- Settles O28: the stack a call leaves ends in its return address, which the return pops. -/
theorem retUndoesCall : Obligations.RetUndoesCall := by
  intro nnn s t u hroom hcall hstack
  obtain rfl := Host.Outcome.next.inj ((exec_call_of_room hroom nnn).symm.trans hcall)
  have hu : u.stack = s.stack ++ [s.pc + 2] := hstack
  exact ⟨_, exec_ret_of_stack hu, rfl, rfl, unchangedBut_setPc_stack u _ _⟩

/-- Settles O30: each skip is one move of PC, by 4 or by 2 as the registers compare; the low nibble counts in the strict
decoder alone. -/
theorem skipsOnRegister : Obligations.SkipsOnRegister := fun x y s =>
  ⟨decodeReadsEncodedInstruction (.seReg x y) rfl, decodeReadsEncodedInstruction (.sneReg x y) rfl,
    fun n hn => ⟨(decodeWith_formatXYN_5 true x y n).trans (by simpa using hn),
      (decodeWith_formatXYN_9 true x y n).trans (by simpa using hn)⟩,
    fun n => ⟨(decodeWith_formatXYN_5 false x y n).trans (by simp),
      (decodeWith_formatXYN_9 false x y n).trans (by simp)⟩,
    ⟨_, exec_seReg x y s, rfl, unchangedBut_setPc s _⟩,
    ⟨_, exec_sneReg x y s, rfl, unchangedBut_setPc s _⟩⟩

/-- Settles O31: the checked sum is the next PC, or ends in the shared fault entry. -/
theorem jpV0AddsRegisterZero : Obligations.JpV0AddsRegisterZero := by
  refine fun nnn s => ⟨decode_formatA_jpV0 nnn, fun h => ?_, fun h => ?_⟩
  · exact ⟨_, exec_jpV0_of_le h, Nat.mod_eq_of_lt (by omega), unchangedBut_setPc s _⟩
  · exact ⟨_, exec_jpV0_of_gt h, s.raise_latches (.addressOutOfRange _) _⟩

/-- Settles O32: the step is a jump, and its target is PC. -/
theorem parkedCoreStaysParked : Obligations.ParkedCoreStaysParked := by
  rintro s ⟨hfetch, hword⟩
  have hrun : AboutToRun (.jp (s.pc.setWidth 12)) s := ⟨hfetch, hword ▸ decode_formatA_jp _⟩
  rw [step_of_aboutToRun hrun, exec_jp, zext16_setWidth hfetch.2]
  rfl

end Sys2Proof.Machine
end

section
/-! PROOFS. Register arithmetic and logic, the rest (spec/41_alu.md R71 to R83): the shared writes, the flags as numbers,
and the obligations O34 to O39. -/

namespace Sys2Proof.Machine

/-! ### The shared writes -/

/-- The registers after the advance and a write of a result and its flag: VF is the flag, also for x = F (R10). -/
theorem State.readV_advance_writeResultFlag (s : State) (x r : RegNum) (b : Byte) (flag : Bool) :
    (s.advance.writeResultFlag x b flag).readV r = if r = vf then flagByte flag else if r = x then b else s.readV r := by
  simp only [State.writeResultFlag, State.readV_writeV, State.readV_advance]

theorem State.readV_vf_advance_writeResultFlag (s : State) (x : RegNum) (b : Byte) (flag : Bool) :
    (s.advance.writeResultFlag x b flag).readV vf = flagByte flag := by
  rw [State.readV_advance_writeResultFlag, if_pos rfl]

/-- Every register but VF is Vx with the result, or kept. -/
theorem State.toNat_readV_advance_writeResultFlag (s : State) (x : RegNum) {r : RegNum} (hr : r ≠ vf) (b : Byte)
    (flag : Bool) : ((s.advance.writeResultFlag x b flag).readV r).toNat =
      if r = x then b.toNat else (s.readV r).toNat := by
  rw [State.readV_advance_writeResultFlag, if_neg hr, apply_ite BitVec.toNat]

/-- The frame of an instruction that writes a result and its flag and advances PC. -/
theorem unchangedBut_advance_writeResultFlag (s : State) (x : RegNum) (b : Byte) (flag : Bool) :
    UnchangedBut [.v, .pc] s (s.advance.writeResultFlag x b flag) :=
  UnchangedBut.of_fields (.inr rfl) (.inl (by decide)) (.inr rfl) (.inl (by decide)) (.inr rfl) (.inr rfl) (.inr rfl)
    (.inr rfl) (.inr rfl) (.inr rfl) (.inr rfl)

/-- The frame of an instruction that draws a free value, writes registers and advances PC. -/
theorem unchangedBut_advance_drawn_writeV (s : State) (x : RegNum) (b : Byte) :
    UnchangedBut [.v, .pc, .draws] s (s.advance.drawn.writeV x b) :=
  UnchangedBut.of_fields (.inr rfl) (.inl (by decide)) (.inr rfl) (.inl (by decide)) (.inr rfl) (.inr rfl) (.inr rfl)
    (.inr rfl) (.inr rfl) (.inr rfl) (.inl (by decide))

/-- Every register but Vx is kept by one register write with the advance. -/
theorem State.readV_advance_writeV_of_ne (s : State) {x r : RegNum} (hr : r ≠ x) (b : Byte) :
    (s.advance.writeV x b).readV r = s.readV r := by
  rw [State.readV_advance_writeV, if_neg hr]

theorem State.readV_advance_writeV_self (s : State) (x : RegNum) (b : Byte) : (s.advance.writeV x b).readV x = b := by
  rw [State.readV_advance_writeV, if_pos rfl]

/-! ### Flags and results as numbers -/

theorem flagByte_eq_one_iff (b : Bool) : flagByte b = 1 ↔ b = true := by
  cases b <;> decide

/-- A flag is 1 or 0 (R15). -/
theorem flagByte_eq_one_or_zero (b : Bool) : flagByte b = 1 ∨ flagByte b = 0 := by
  cases b <;> decide

theorem flagByte_decide (p : Prop) [Decidable p] : flagByte (decide p) = if p then 1 else 0 := by
  by_cases h : p <;> simp [flagByte, h]

/-- The carry flag (R78). -/
theorem flagByte_carry (a b : Byte) : flagByte (carry a b) = if 255 < a.toNat + b.toNat then 1 else 0 :=
  flagByte_decide _

/-- The no-borrow flag (R79, R81). -/
theorem flagByte_noBorrow (a b : Byte) : flagByte (noBorrow a b) = if b.toNat ≤ a.toNat then 1 else 0 :=
  flagByte_decide _

/-- The 8-bit difference, written without a negative number (R71). -/
theorem toNat_byte_sub (a b : Byte) : (a - b).toNat = (a.toNat + 256 - b.toNat) % 256 := by
  have := b.isLt
  rw [BitVec.toNat_sub]
  omega

/-- The 8-bit difference is the integer difference modulo 256 (R71). -/
theorem toNat_byte_sub_int (a b : Byte) : ((a - b).toNat : Int) = (a.toNat - b.toNat : Int) % 256 := by
  have := b.isLt
  rw [toNat_byte_sub]
  omega

/-- The bit a right shift drops, as a number (R80). -/
theorem toNat_flagByte_droppedLow (c : Byte) : (flagByte (droppedLow c)).toNat = c.toNat % 2 := by
  have hbit : droppedLow c = decide (c.toNat % 2 = 1) := by simp [droppedLow, BitVec.getLsbD, Nat.testBit_zero]
  rw [hbit, flagByte_decide]
  split
  · rename_i h; exact h.symm
  · show 0 = _; omega

/-- The bit a left shift drops, as a number (R82). -/
theorem toNat_flagByte_droppedHigh (c : Byte) : (flagByte (droppedHigh c)).toNat = c.toNat / 128 := by
  have hc := c.isLt
  have hbit : droppedHigh c = decide (c.toNat / 2 ^ 7 % 2 = 1) := by
    simp [droppedHigh, BitVec.getLsbD, Nat.testBit_eq_decide_div_mod_eq]
  rw [hbit, flagByte_decide]
  split
  · show 1 = _; omega
  · show 0 = _; omega

theorem toNat_byte_shiftRight (c : Byte) : (c >>> 1).toNat = c.toNat / 2 := by
  rw [BitVec.toNat_ushiftRight, Nat.shiftRight_eq_div_pow, pow_one]

theorem toNat_byte_shiftLeft (c : Byte) : (c <<< 1).toNat = 2 * c.toNat % 256 := by
  rw [BitVec.toNat_shiftLeft, Nat.shiftLeft_eq, pow_one, Nat.mul_comm]

/-- The shifted register, by `SHIFT_SOURCE` (R80, R82). -/
theorem shiftOperand_eq (source : ShiftSource) (x y : RegNum) (s : State) :
    shiftOperand source x y s = s.readV (if source = .vx then x else y) := by
  cases source <;> rfl

/-- What the shared logic write leaves in each register, by `LOGIC_RESETS_VF` (R75 to R77). -/
theorem State.readV_writeLogic (resets : Bool) (s : State) (x r : RegNum) (b : Byte) :
    (State.writeLogic resets s x b).readV r =
      if resets = true ∧ r = vf then 0 else if r = x then b else s.readV r := by
  cases resets <;> simp [State.writeLogic]

/-! ### The meanings -/

/-- LD Vx, Vy (R74). -/
theorem exec_ldReg (x y : RegNum) (s : State) : exec (.ldReg x y) s = .next (s.advance.writeV x (s.readV y)) := rfl

/-- OR Vx, Vy (R75): one register write, `LOGIC_RESETS_VF` being false. -/
theorem exec_orReg (x y : RegNum) (s : State) :
    exec (.orReg x y) s = .next (s.advance.writeV x (s.readV x ||| s.readV y)) := rfl

/-- AND Vx, Vy (R76). -/
theorem exec_andReg (x y : RegNum) (s : State) :
    exec (.andReg x y) s = .next (s.advance.writeV x (s.readV x &&& s.readV y)) := rfl

/-- XOR Vx, Vy (R77). -/
theorem exec_xorReg (x y : RegNum) (s : State) :
    exec (.xorReg x y) s = .next (s.advance.writeV x (s.readV x ^^^ s.readV y)) := rfl

/-- ADD Vx, Vy (R78). -/
theorem exec_addReg (x y : RegNum) (s : State) : exec (.addReg x y) s =
    .next (s.advance.writeResultFlag x (s.readV x + s.readV y) (carry (s.readV x) (s.readV y))) := rfl

/-- SUB Vx, Vy (R79). -/
theorem exec_sub (x y : RegNum) (s : State) : exec (.sub x y) s =
    .next (s.advance.writeResultFlag x (s.readV x - s.readV y) (noBorrow (s.readV x) (s.readV y))) := rfl

/-- SUBN Vx, Vy (R81). -/
theorem exec_subn (x y : RegNum) (s : State) : exec (.subn x y) s =
    .next (s.advance.writeResultFlag x (s.readV y - s.readV x) (noBorrow (s.readV y) (s.readV x))) := rfl

/-- SHR Vx, Vy (R80). -/
theorem exec_shr (x y : RegNum) (s : State) : exec (.shr x y) s = .next (shiftRight .vx x y s) := rfl

/-- SHL Vx, Vy (R82). -/
theorem exec_shl (x y : RegNum) (s : State) : exec (.shl x y) s = .next (shiftLeft .vx x y s) := rfl

/-- RND Vx, kk (R83). -/
theorem exec_rnd (x : RegNum) (kk : Byte) (s : State) :
    exec (.rnd x kk) s = .next (s.advance.drawn.writeV x (Config.drawU8 s.draws &&& kk)) := rfl

/-- An instruction of the family advances PC and writes registers, and RND moves the draw counter too (R71). -/
theorem exec_alu {i : Instr} (hi : isAlu i = true) (s : State) :
    ∃ v draws, exec i s = .next { s.advance with v := v, draws := draws } := by
  cases i with
  | ldImm x kk | addImm x kk | rnd x kk => exact ⟨_, _, rfl⟩
  | ldReg x y | orReg x y | andReg x y | xorReg x y | addReg x y | sub x y | shr x y | subn x y | shl x y =>
    exact ⟨_, _, rfl⟩
  | _ => cases hi

/-! ### The obligations -/

/-- Settles O34: one write of Vy's value to Vx on the advanced state. -/
theorem registerCopy : Obligations.RegisterCopy := fun x y s =>
  ⟨decodeReadsEncodedInstruction (.ldReg x y) rfl, _, exec_ldReg x y s, fun r => s.readV_advance_writeV x r (s.readV y),
    rfl, unchangedBut_advance_writeV s x _⟩

/-- What O35 says of one logic instruction, from the bits of its operation: the write is to Vx alone. -/
theorem logic_write {op : Byte → Byte → Byte} {opBit : Bool → Bool → Bool}
    (hbit : ∀ (a b : Byte) k, (op a b).getLsbD k = opBit (a.getLsbD k) (b.getLsbD k)) {i : Instr} {x y : RegNum}
    {s : State} (hexec : exec i s = .next (s.advance.writeV x (op (s.readV x) (s.readV y)))) :
    ∃ t, exec i s = .next t ∧
      (∀ k, (t.readV x).getLsbD k = opBit ((s.readV x).getLsbD k) ((s.readV y).getLsbD k)) ∧
      (∀ r, r ≠ x → t.readV r = s.readV r) ∧ t.pc = s.pc + 2 ∧ UnchangedBut [.v, .pc] s t :=
  ⟨_, hexec, fun k => by rw [State.readV_advance_writeV_self, hbit],
    fun _ hr => s.readV_advance_writeV_of_ne hr _, rfl, unchangedBut_advance_writeV s x _⟩

/-- Settles O35: each instruction is one write of the bitwise operation to Vx on the advanced state. -/
theorem logicOperations : Obligations.LogicOperations := fun x y s =>
  ⟨decodeReadsEncodedInstruction (.orReg x y) rfl, decodeReadsEncodedInstruction (.andReg x y) rfl,
    decodeReadsEncodedInstruction (.xorReg x y) rfl,
    logic_write (opBit := or) (fun _ _ _ => BitVec.getLsbD_or) (exec_orReg x y s),
    logic_write (opBit := and) (fun _ _ _ => BitVec.getLsbD_and) (exec_andReg x y s),
    logic_write (opBit := xor) (fun _ _ _ => BitVec.getLsbD_xor) (exec_xorReg x y s),
    fun resets b r => State.readV_writeLogic resets s x r b⟩

/-- Settles O36: the 8-bit results are sums and differences modulo 256, and the flag is written after them. -/
theorem addAndSubtractWithFlag : Obligations.AddAndSubtractWithFlag := by
  rintro x y s _ _ rfl rfl
  refine ⟨decodeReadsEncodedInstruction (.addReg x y) rfl, decodeReadsEncodedInstruction (.sub x y) rfl,
    decodeReadsEncodedInstruction (.subn x y) rfl,
    ⟨_, exec_addReg x y s, ?_, fun r hr => ?_, rfl, unchangedBut_advance_writeResultFlag s x _ _⟩,
    ⟨_, exec_sub x y s, ?_, fun r hr => ?_, rfl, unchangedBut_advance_writeResultFlag s x _ _⟩,
    ⟨_, exec_subn x y s, ?_, fun r hr => ?_, rfl, unchangedBut_advance_writeResultFlag s x _ _⟩⟩
  · rw [State.readV_vf_advance_writeResultFlag, flagByte_carry]
  · rw [s.toNat_readV_advance_writeResultFlag x hr, BitVec.toNat_add]
  · rw [State.readV_vf_advance_writeResultFlag, flagByte_noBorrow]
  · rw [s.toNat_readV_advance_writeResultFlag x hr, toNat_byte_sub]
  · rw [State.readV_vf_advance_writeResultFlag, flagByte_noBorrow]
  · rw [s.toNat_readV_advance_writeResultFlag x hr, toNat_byte_sub]

/-- Settles O37: both shifts write the shifted source and then the bit it lost. -/
theorem shiftsWithFlag : Obligations.ShiftsWithFlag := by
  refine fun x y s => ⟨decodeReadsEncodedInstruction (.shr x y) rfl, decodeReadsEncodedInstruction (.shl x y) rfl,
    exec_shr x y s, exec_shl x y s, ?_⟩
  rintro source _ rfl
  rw [← shiftOperand_eq]
  refine ⟨⟨_, rfl, ?_, fun r hr => ?_, rfl, unchangedBut_advance_writeResultFlag s x _ _⟩,
    ⟨_, rfl, ?_, fun r hr => ?_, rfl, unchangedBut_advance_writeResultFlag s x _ _⟩⟩
  · rw [shiftRight, State.readV_vf_advance_writeResultFlag, toNat_flagByte_droppedLow]
  · rw [shiftRight, s.toNat_readV_advance_writeResultFlag x hr, toNat_byte_shiftRight]
  · rw [shiftLeft, State.readV_vf_advance_writeResultFlag, toNat_flagByte_droppedHigh]
  · rw [shiftLeft, s.toNat_readV_advance_writeResultFlag x hr, toNat_byte_shiftLeft]

/-- Settles O38: one write of the masked byte to Vx on the advanced state, after one draw. -/
theorem randomByteIsMasked : Obligations.RandomByteIsMasked := by
  refine fun x kk s => ⟨decode_formatXK_rnd x kk, _, exec_rnd x kk s, fun k => ?_, fun r hr => ?_, rfl, rfl,
    unchangedBut_advance_drawn_writeV s x _⟩
  · rw [State.readV_writeV, if_pos rfl, BitVec.getLsbD_and]
  · rw [State.readV_writeV, if_neg hr, State.readV_drawn, State.readV_advance]

/-- Settles O39: the laws of one result with its flag, and the shape all instructions of the family share. -/
theorem arithmeticLaws : Obligations.ArithmeticLaws := by
  refine ⟨fun x y s t h => ?_, fun x y s t h => ?_, fun x kk s t h => ?_, fun i s hi => ?_⟩
  · obtain rfl := Host.Outcome.next.inj ((exec_addReg x y s).symm.trans h)
    rw [State.readV_vf_advance_writeResultFlag]
    refine ⟨(flagByte_eq_one_iff _).trans decide_eq_true_iff, flagByte_eq_one_or_zero _, fun hx => ?_⟩
    rw [s.toNat_readV_advance_writeResultFlag x hx, if_pos rfl, BitVec.toNat_add]
  · obtain rfl := Host.Outcome.next.inj ((exec_sub x y s).symm.trans h)
    rw [State.readV_vf_advance_writeResultFlag]
    refine ⟨(flagByte_eq_one_iff _).trans decide_eq_true_iff, flagByte_eq_one_or_zero _, fun hx => ?_⟩
    rw [s.toNat_readV_advance_writeResultFlag x hx, if_pos rfl, toNat_byte_sub_int]
  · obtain rfl := Host.Outcome.next.inj ((exec_addImm x kk s).symm.trans h)
    rw [State.toNat_readV_advance_writeV_add, if_pos rfl]
  · obtain ⟨v, draws, h⟩ := exec_alu hi s
    exact ⟨_, h, rfl, rfl, UnchangedBut.of_fields (.inr rfl) (.inl (by decide)) (.inr rfl) (.inl (by decide)) (.inr rfl)
      (.inr rfl) (.inr rfl) (.inr rfl) (.inr rfl) (.inr rfl) (.inl (by decide))⟩

end Sys2Proof.Machine
end

section
/-! PROOFS. Index register and memory transfers, the rest (spec/42_index_memory.md R85 to R89, spec/20_memory.md R46): the
meanings inside and outside memory, and the obligations O23, O41, O42, O43, O44, O45 and O46. -/

namespace Sys2Proof.Machine

/-! ### Frames and registers -/

/-- The frame of an instruction that writes memory and advances PC. -/
theorem unchangedBut_advance_mem (s : State) (m : List Host.Cell) :
    UnchangedBut [.mem, .pc] s { s.advance with mem := m } :=
  UnchangedBut.of_fields (.inl (by decide)) (.inr rfl) (.inr rfl) (.inl (by decide)) (.inr rfl) (.inr rfl) (.inr rfl)
    (.inr rfl) (.inr rfl) (.inr rfl) (.inr rfl)

/-- The frame of an instruction that writes the register file and advances PC. -/
theorem unchangedBut_advance_v (s : State) (v : Vector Byte 16) : UnchangedBut [.v, .pc] s { s.advance with v := v } :=
  UnchangedBut.of_fields (.inr rfl) (.inl (by decide)) (.inr rfl) (.inl (by decide)) (.inr rfl) (.inr rfl) (.inr rfl)
    (.inr rfl) (.inr rfl) (.inr rfl) (.inr rfl)

theorem unchangedBut_setI (s : State) (w : Word) : UnchangedBut [.i] s (s.setI w) :=
  UnchangedBut.of_fields (.inr rfl) (.inr rfl) (.inl (by decide)) (.inr rfl) (.inr rfl) (.inr rfl) (.inr rfl) (.inr rfl)
    (.inr rfl) (.inr rfl) (.inr rfl)

@[simp] theorem State.writeVs_i (s : State) (r : Nat) (bs : List Byte) : (s.writeVs r bs).i = s.i := by
  rw [s.writeVs_eq]

/-- Writing the value I has changes nothing, as Fx55 and Fx65 do under `LOADSTORE_I_MODE` = unchanged. -/
theorem State.setI_self {s : State} {w : Word} (h : w = s.i) : s.setI w = s := by
  rw [h]; rfl

/-- I after Fx55 or Fx65 under `LOADSTORE_I_MODE` = increment (R88, R89). -/
theorem toNat_indexAfter_increment {i : Word} {x : RegNum} (h : i.toNat + x.val ≤ 0xFFF) :
    (indexAfter .increment i x).toNat = i.toNat + x.val + 1 := by
  simp only [indexAfter, BitVec.toNat_add, BitVec.toNat_ofNat]
  omega

/-! ### Bytes -/

/-- The glyph of a nibble lies in the font (R86). -/
theorem toNat_glyphAddress (b : Byte) : (glyphAddress b).toNat = 0x050 + 5 * (b.toNat % 16) :=
  Nat.mod_eq_of_lt (by simp only [Params.fontBase, Params.glyphBytes]; omega)

/-- The three digits of a byte, each of them a byte (R87). -/
theorem toNat_decimalDigits (b : Byte) :
    ((decimalDigits b).getD 0 0).toNat = b.toNat / 100 ∧ ((decimalDigits b).getD 1 0).toNat = b.toNat / 10 % 10 ∧
      ((decimalDigits b).getD 2 0).toNat = b.toNat % 10 := by
  have := b.isLt
  exact ⟨Nat.mod_eq_of_lt (by omega), Nat.mod_eq_of_lt (by omega), Nat.mod_eq_of_lt (by omega)⟩

theorem length_decimalDigits (b : Byte) : (decimalDigits b).length = 3 := rfl

/-- What the r-th address after a store holds. -/
theorem Memory.read_writeBytes_add (m : List Host.Cell) (a : Nat) {bs : List Byte} {r : Nat} (h : r < bs.length) :
    Memory.read (Memory.writeBytes m a bs) (a + r) = bs.getD r 0 := by
  rw [Memory.read_writeBytes, if_pos ⟨by omega, by omega⟩, Nat.add_sub_cancel_left]

/-- What an address outside a store holds. -/
theorem Memory.read_writeBytes_outside (m : List Host.Cell) {a a' : Nat} {bs : List Byte}
    (h : a' < a ∨ a + bs.length ≤ a') : Memory.read (Memory.writeBytes m a bs) a' = Memory.read m a' := by
  rw [Memory.read_writeBytes, if_neg (by omega)]

/-- The r-th byte read is the one at the r-th address. -/
theorem Memory.getD_readBytes (m : List Host.Cell) (a : Nat) {n r : Nat} (h : r < n) :
    (Memory.readBytes m a n).getD r 0 = Memory.read m (a + r) := by
  simp [Memory.readBytes_eq_map, h]

/-- The registers after `writeVs` of the n bytes at `a`: those below n are loaded (R89). -/
theorem State.readV_writeVs_readBytes (s : State) (m : List Host.Cell) (a n : Nat) (r : RegNum) :
    (s.writeVs 0 (Memory.readBytes m a n)).readV r = if r.val < n then Memory.read m (a + r.val) else s.readV r := by
  rw [State.readV_writeVs, Memory.length_readBytes, Nat.zero_add, Nat.sub_zero]
  by_cases h : r.val < n
  · rw [if_pos ⟨Nat.zero_le _, h⟩, if_pos h, Memory.getD_readBytes m a h]
  · rw [if_neg fun hr => h hr.2, if_neg h]

/-! ### The meanings -/

/-- ADD I, Vx to an address in memory (R85). -/
theorem exec_addI_of_le {x : RegNum} {s : State} (h : s.i.toNat + (s.readV x).toNat ≤ 0xFFF) :
    exec (.addI x) s = .next (s.advance.setI (BitVec.ofNat 16 (s.i.toNat + (s.readV x).toNat))) := by
  simp only [exec, execAddI, checkedAddress_ok h, attempt_ok]

/-- ADD I, Vx to an address outside memory (R85). -/
theorem exec_addI_of_gt {x : RegNum} {s : State} (h : 0xFFF < s.i.toNat + (s.readV x).toNat) :
    exec (.addI x) s =
      .next (s.raise (.addressOutOfRange (s.i.toNat + (s.readV x).toNat)) (some (encode (.addI x)))) := by
  simp only [exec, execAddI, checkedAddress_error h, attempt_error]

/-- LD F, Vx (R86). -/
theorem exec_ldF (x : RegNum) (s : State) : exec (.ldF x) s = .next (s.advance.setI (glyphAddress (s.readV x))) := rfl

/-- LD B, Vx inside memory (R87). -/
theorem exec_ldB_of_le {s : State} (h : s.i.toNat + 2 ≤ 0xFFF) (x : RegNum) : exec (.ldB x) s =
    .next { s.advance with mem := Memory.writeBytes s.mem s.i.toNat (decimalDigits (s.readV x)) } := by
  have hlen : s.i.toNat + (decimalDigits (s.readV x)).length ≤ 0x1000 := by rw [length_decimalDigits]; omega
  simp only [exec, execLdB, State.memWriteBytes_ok s.advance (.inr hlen), attempt_ok]
  rfl

/-- LD B, Vx beyond memory (R87). -/
theorem exec_ldB_of_gt {s : State} (h : 0xFFF < s.i.toNat + 2) (x : RegNum) : exec (.ldB x) s =
    .next (s.raise (.addressOutOfRange (max s.i.toNat 0x1000)) (some (encode (.ldB x)))) := by
  have hlen : 0x1000 < s.i.toNat + (decimalDigits (s.readV x)).length := by rw [length_decimalDigits]; omega
  have hpos : 0 < (decimalDigits (s.readV x)).length := Nat.succ_pos 2
  simp only [exec, execLdB, State.memWriteBytes_error s.advance hpos hlen, attempt_error]

/-- Fx55 inside memory, by `LOADSTORE_I_MODE` (R88). -/
theorem storeRegisters_of_le {x : RegNum} {s : State} (h : s.i.toNat + x.val ≤ 0xFFF) (mode : LoadStoreIMode) :
    storeRegisters mode x s = .ok (State.setI { s.advance with mem := Memory.writeBytes s.mem s.i.toNat (s.readVsTo x) }
      (indexAfter mode s.i x)) := by
  have hlen : s.i.toNat + (s.readVsTo x).length ≤ 0x1000 := by rw [State.length_readVsTo]; omega
  simp only [storeRegisters, State.memWriteBytes_ok s.advance (.inr hlen)]
  rfl

/-- LD [I], Vx inside memory (R88). -/
theorem exec_ldMemVx_of_le {x : RegNum} {s : State} (h : s.i.toNat + x.val ≤ 0xFFF) : exec (.ldMemVx x) s =
    .next { s.advance with mem := Memory.writeBytes s.mem s.i.toNat (s.readVsTo x) } := by
  simp only [exec, execLdMemVx, storeRegisters_of_le h, attempt_ok]
  rfl

/-- LD [I], Vx beyond memory (R88). -/
theorem exec_ldMemVx_of_gt {x : RegNum} {s : State} (h : 0xFFF < s.i.toNat + x.val) : exec (.ldMemVx x) s =
    .next (s.raise (.addressOutOfRange (max s.i.toNat 0x1000)) (some (encode (.ldMemVx x)))) := by
  have hlen : 0x1000 < s.i.toNat + (s.readVsTo x).length := by rw [State.length_readVsTo]; omega
  have hpos : 0 < (s.readVsTo x).length := by rw [State.length_readVsTo]; omega
  simp only [exec, execLdMemVx, storeRegisters, State.memWriteBytes_error s.advance hpos hlen, attempt_error]

/-- Fx65 inside memory, by `LOADSTORE_I_MODE` (R89). -/
theorem loadRegisters_of_le {x : RegNum} {s : State} (h : s.i.toNat + x.val ≤ 0xFFF) (mode : LoadStoreIMode) :
    loadRegisters mode x s = .ok ((s.advance.writeVs 0 (Memory.readBytes s.mem s.i.toNat (x.val + 1))).setI
      (indexAfter mode s.i x)) := by
  simp only [loadRegisters, s.memReadBytes_ok (a := s.i.toNat) (n := x.val + 1) (.inr (by omega))]

/-- LD Vx, [I] inside memory (R89). -/
theorem exec_ldVxMem_of_le {x : RegNum} {s : State} (h : s.i.toNat + x.val ≤ 0xFFF) : exec (.ldVxMem x) s =
    .next (s.advance.writeVs 0 (Memory.readBytes s.mem s.i.toNat (x.val + 1))) := by
  simp only [exec, execLdVxMem, loadRegisters_of_le h, attempt_ok]
  exact congrArg Host.Outcome.next (State.setI_self (State.writeVs_i s.advance _ _).symm)

/-- LD Vx, [I] beyond memory (R89). -/
theorem exec_ldVxMem_of_gt {x : RegNum} {s : State} (h : 0xFFF < s.i.toNat + x.val) : exec (.ldVxMem x) s =
    .next (s.raise (.addressOutOfRange (max s.i.toNat 0x1000)) (some (encode (.ldVxMem x)))) := by
  simp only [exec, execLdVxMem, loadRegisters,
    s.memReadBytes_error (a := s.i.toNat) (n := x.val + 1) (Nat.succ_pos _) (by omega), attempt_error]

/-! ### The obligations -/

/-- Settles O41: the checked sum is the next I, or ends in the shared fault entry. -/
theorem addIChecksRange : Obligations.AddIChecksRange := by
  refine fun x s => ⟨decodeReadsEncodedInstruction (.addI x) rfl, fun h => ?_, fun h => ?_⟩
  · exact ⟨_, exec_addI_of_le h, Nat.mod_eq_of_lt (by omega), rfl, unchangedBut_advance_setI s _⟩
  · exact ⟨_, exec_addI_of_gt h, s.raise_latches (.addressOutOfRange _) _⟩

/-- Settles O42: one write of the glyph's address to I on the advanced state. -/
theorem ldFAddressesGlyph : Obligations.LdFAddressesGlyph := fun x s =>
  ⟨decodeReadsEncodedInstruction (.ldF x) rfl, _, exec_ldF x s, toNat_glyphAddress _, rfl,
    unchangedBut_advance_setI s _⟩

/-- Settles O43: the checked store of three digits, or the shared fault entry. -/
theorem ldBWritesDecimalDigits : Obligations.LdBWritesDecimalDigits := by
  refine fun x s => ⟨decodeReadsEncodedInstruction (.ldB x) rfl, fun h => ?_, fun h => ?_⟩
  · obtain ⟨hundreds, tens, ones⟩ := toNat_decimalDigits (s.readV x)
    have hread : ∀ r, r < 3 → Memory.read (Memory.writeBytes s.mem s.i.toNat (decimalDigits (s.readV x)))
        (s.i.toNat + r) = (decimalDigits (s.readV x)).getD r 0 := fun r hr => Memory.read_writeBytes_add _ _ hr
    refine ⟨_, exec_ldB_of_le h x, ?_, ?_, ?_, fun a ha => ?_, rfl, unchangedBut_advance_mem s _⟩
    · exact (congrArg BitVec.toNat (hread 0 (by decide))).trans hundreds
    · exact (congrArg BitVec.toNat (hread 1 (by decide))).trans tens
    · exact (congrArg BitVec.toNat (hread 2 (by decide))).trans ones
    · exact Memory.read_writeBytes_outside _ (ha.imp_right fun hgt => hgt)
  · exact ⟨_, exec_ldB_of_gt h x, s.raise_latches (.addressOutOfRange _) _⟩

/-- Settles O44: the checked store of V0..Vx, or the shared fault entry; `LOADSTORE_I_MODE` decides the write of I
alone. -/
theorem ldMemVxStoresRegisters : Obligations.LdMemVxStoresRegisters := by
  refine fun x s => ⟨decodeReadsEncodedInstruction (.ldMemVx x) rfl, fun h => ?_, fun h => ?_⟩
  · refine ⟨_, _, exec_ldMemVx_of_le h, fun r hr => ?_, fun a ha => ?_, rfl, unchangedBut_advance_mem s _,
      storeRegisters_of_le h .increment, toNat_indexAfter_increment h, unchangedBut_setI _ _⟩
    · have hlt : r.val < (s.readVsTo x).length := by rw [State.length_readVsTo]; exact Nat.lt_succ_of_le hr
      exact (Memory.read_writeBytes_add _ _ hlt).trans (s.readVsTo_getD x r hr)
    · exact Memory.read_writeBytes_outside _ (by rw [State.length_readVsTo]; omega)
  · exact ⟨_, exec_ldMemVx_of_gt h, s.raise_latches (.addressOutOfRange _) _⟩

/-- Settles O45: the checked load of V0..Vx, or the shared fault entry; `LOADSTORE_I_MODE` decides the write of I
alone. -/
theorem ldVxMemLoadsRegisters : Obligations.LdVxMemLoadsRegisters := by
  refine fun x s => ⟨decodeReadsEncodedInstruction (.ldVxMem x) rfl, fun h => ?_, fun h => ?_⟩
  · have hv := s.advance.writeVs_eq 0 (Memory.readBytes s.mem s.i.toNat (x.val + 1))
    refine ⟨_, _, exec_ldVxMem_of_le h, fun r => ?_, ?_, ?_, loadRegisters_of_le h .increment,
      toNat_indexAfter_increment h, unchangedBut_setI _ _⟩
    · rw [State.readV_writeVs_readBytes, State.readV_advance]
      simp only [Nat.lt_succ_iff, Fin.le_def]
    · rw [hv]; rfl
    · rw [hv]; exact unchangedBut_advance_v s _
  · exact ⟨_, exec_ldVxMem_of_gt h, s.raise_latches (.addressOutOfRange _) _⟩

/-- Settles O46: the load reads the bytes the store wrote. -/
theorem loadGivesBackWhatWasStored : Obligations.LoadGivesBackWhatWasStored := by
  intro x s t u h hstore hmem hi
  obtain rfl := Host.Outcome.next.inj ((exec_ldMemVx_of_le h).symm.trans hstore)
  refine ⟨_, exec_ldVxMem_of_le (hi ▸ h), fun r => ?_⟩
  rw [State.readV_writeVs_readBytes, State.readV_advance, hmem, hi]
  simp only [Nat.lt_succ_iff, Fin.le_def]
  by_cases hr : r.val ≤ x.val
  · have hlt : r.val < (s.readVsTo x).length := by rw [State.length_readVsTo]; omega
    rw [if_pos hr, if_pos hr, Memory.read_writeBytes_add _ _ hlt, s.readVsTo_getD x r hr]
  · rw [if_neg hr, if_neg hr]

/-- Fx55 and Fx33 that raise no fault store their bytes at I (R87, R88). -/
theorem mem_of_store {x : RegNum} {s t : State} {j : Instr} {bs : List Byte}
    (hj : (j = .ldMemVx x ∧ bs = s.readVsTo x) ∨ (j = .ldB x ∧ bs = decimalDigits (s.readV x)))
    (hexec : exec j s = .next t) (hok : t.fault = none) : t.mem = Memory.writeBytes s.mem s.i.toNat bs := by
  rcases hj with ⟨rfl, rfl⟩ | ⟨rfl, rfl⟩
  · rcases Nat.lt_or_ge 0xFFF (s.i.toNat + x.val) with h | h
    · obtain rfl := Host.Outcome.next.inj ((exec_ldMemVx_of_gt h).symm.trans hexec)
      cases hok
    · obtain rfl := Host.Outcome.next.inj ((exec_ldMemVx_of_le h).symm.trans hexec)
      rfl
  · rcases Nat.lt_or_ge 0xFFF (s.i.toNat + 2) with h | h
    · obtain rfl := Host.Outcome.next.inj ((exec_ldB_of_gt h x).symm.trans hexec)
      cases hok
    · obtain rfl := Host.Outcome.next.inj ((exec_ldB_of_le h x).symm.trans hexec)
      rfl

/-- Settles O23: the word at PC is read from the memory the store left, and the step runs it or faults on it. -/
theorem storeIsSeenByNextFetch : Obligations.StoreIsSeenByNextFetch := by
  intro x s t u j bs hj _ hexec hok hmem hfetch
  have hword : wordAt u u.pc.toNat = wordAfterStore s bs u.pc.toNat :=
    wordAt_of_writeBytes (hmem.trans (mem_of_store hj hexec hok)) _
  rw [← hword]
  exact ⟨rfl, fun i hd => step_of_aboutToRun ⟨hfetch, hd⟩, illegalWordFaults u hfetch⟩

end Sys2Proof.Machine
end

section
/-! PROOFS. Dxyn (spec/43_display.md R91 to R94): the pixels a sprite covers are those its loop writes, what one draw
leaves, and the obligations O48 and O49. -/

namespace Sys2Proof.Machine

/-! ### The covered pixels -/

/-- A sprite bit is written to a pixel exactly if it lands on it (R91). -/
theorem spritePos_eq_some_iff (edge : DrawEdge) (cx cy c r : Nat) (px : Fin 64) (py : Fin 32) :
    spritePos edge cx cy c r = some (px, py) ↔ Lands edge cx cy c r px py := by
  cases edge with
  | wrap => simp only [spritePos, Lands, Option.some.injEq, Prod.mk.injEq, Fin.ext_iff]
  | clip =>
    simp only [spritePos, Lands]
    split
    case isTrue => simp only [Option.some.injEq, Prod.mk.injEq, Fin.ext_iff]
    case isFalse hout =>
      have := px.isLt
      have := py.isLt
      exact iff_of_false nofun fun hl => hout (by omega)

/-- The pixels Dxyn writes. -/
def sprite (edge : DrawEdge) (x y : RegNum) (n : Nat) (s : State) : List (Fin 64 × Fin 32) :=
  spriteTargets edge ((s.readV x).toNat % 64) ((s.readV y).toNat % 32) 0 (Memory.readBytes s.mem s.i.toNat n)

/-- The pixels Dxyn writes are those a 1-bit of the sprite lands on (R91). -/
theorem mem_sprite_iff (edge : DrawEdge) (x y : RegNum) (n : Nat) (s : State) (px : Fin 64) (py : Fin 32) :
    (px, py) ∈ sprite edge x y n s ↔ SpriteCovers edge s x y n px py := by
  simp only [sprite, mem_spriteTargets, Memory.length_readBytes, spritePos_eq_some_iff, SpriteCovers, Nat.zero_add,
    spriteBit]
  refine exists_congr fun r => exists_congr fun c => and_congr_right fun hr => ?_
  rw [Memory.getD_readBytes _ _ hr]

theorem nodup_sprite (edge : DrawEdge) (x y : RegNum) (n : Nibble) (s : State) : (sprite edge x y n.toNat s).Nodup := by
  have := n.isLt
  exact nodup_spriteTargets edge _ _ 0 _ (by rw [Memory.length_readBytes]; omega)

/-- A covered pixel that is on, as the loop finds it and as R93 says it. -/
theorem exists_mem_sprite_iff (edge : DrawEdge) (x y : RegNum) (n : Nat) (s : State) :
    (∃ p ∈ sprite edge x y n s, pixel s.fb p.1 p.2 = true) ↔
      ∃ px py, SpriteCovers edge s x y n px py ∧ pixel s.fb px py = true := by
  simp only [Prod.exists, mem_sprite_iff]

/-! ### One draw -/

/-- The state after Dxyn draws (R91): the pixels written one by one, and VF the collision. -/
def State.drawnSprite (edge : DrawEdge) (x y : RegNum) (n : Nat) (s : State) : State :=
  { s.advance with fb := ((sprite edge x y n s).foldl drawPixel (s.fb, false)).1 }.writeV vf
    (flagByte ((sprite edge x y n s).foldl drawPixel (s.fb, false)).2)

/-- Dxyn with its rows in memory, by `DRAW_EDGE` (R91). -/
theorem drawSprite_of_inside {n : Nibble} {s : State} (h : n.toNat = 0 ∨ s.i.toNat + n.toNat ≤ 0x1000)
    (edge : DrawEdge) (x y : RegNum) : drawSprite edge x y n s = .ok (s.drawnSprite edge x y n.toNat) := by
  simp only [drawSprite, s.memReadBytes_ok h, drawRows_eq_foldl]
  rfl

/-- Dxyn with a row beyond memory, by `DRAW_EDGE` (R35, R91). -/
theorem drawSprite_of_outside {n : Nibble} {s : State} (hpos : 0 < n.toNat) (h : 0x1000 < s.i.toNat + n.toNat)
    (edge : DrawEdge) (x y : RegNum) :
    drawSprite edge x y n s = .error (.addressOutOfRange (max s.i.toNat 0x1000)) := by
  simp only [drawSprite, s.memReadBytes_error hpos h]

/-- DRW Vx, Vy, n with its rows in memory (R91). -/
theorem exec_drw_of_inside {n : Nibble} {s : State} (h : n.toNat = 0 ∨ s.i.toNat + n.toNat ≤ 0x1000) (x y : RegNum) :
    exec (.drw x y n) s = .next (s.drawnSprite .wrap x y n.toNat) :=
  congrArg (attempt (.drw x y n) s) (drawSprite_of_inside h .wrap x y)

/-- DRW Vx, Vy, n with a row beyond memory (R35, R91). -/
theorem exec_drw_of_outside {n : Nibble} {s : State} (hpos : 0 < n.toNat) (h : 0x1000 < s.i.toNat + n.toNat)
    (x y : RegNum) : exec (.drw x y n) s =
      .next (s.raise (.addressOutOfRange (max s.i.toNat 0x1000)) (some (encode (.drw x y n)))) :=
  congrArg (attempt (.drw x y n) s) (drawSprite_of_outside hpos h .wrap x y)

/-- The frame of an instruction that writes the framebuffer and registers and advances PC. -/
theorem unchangedBut_drawnSprite (edge : DrawEdge) (x y : RegNum) (n : Nat) (s : State) :
    UnchangedBut [.fb, .v, .pc] s (s.drawnSprite edge x y n) :=
  UnchangedBut.of_fields (.inr rfl) (.inl (by decide)) (.inr rfl) (.inl (by decide)) (.inr rfl) (.inr rfl) (.inr rfl)
    (.inl (by decide)) (.inr rfl) (.inr rfl) (.inr rfl)

/-- A draw inverts the covered pixels, no other one, and VF tells of a collision (R91 to R93). -/
theorem drawnFrom_drawnSprite (edge : DrawEdge) (x y : RegNum) (n : Nibble) (s : State) :
    DrawnFrom edge x y n.toNat s (s.drawnSprite edge x y n.toNat) := by
  obtain ⟨hpixel, hhit⟩ := foldl_drawPixel (sprite edge x y n.toNat s) (nodup_sprite edge x y n s) (s.fb, false)
  have hvf : (s.drawnSprite edge x y n.toNat).readV vf =
      flagByte (decide (∃ p ∈ sprite edge x y n.toNat s, pixel s.fb p.1 p.2 = true)) := by
    rw [State.drawnSprite, State.readV_writeV, if_pos rfl, hhit, Bool.false_or]
  refine ⟨fun px py => ?_, fun hc => ?_, fun hc => ?_, fun r hr => ?_, rfl, unchangedBut_drawnSprite edge x y n.toNat s⟩
  · rw [← mem_sprite_iff]
    refine (Bool.eq_iff_iff.mp (hpixel px py)).trans ?_
    by_cases hmem : (px, py) ∈ sprite edge x y n.toNat s <;> simp [hmem]
  · rw [hvf, decide_eq_true ((exists_mem_sprite_iff edge x y n.toNat s).mpr hc)]; rfl
  · rw [hvf, decide_eq_false (mt (exists_mem_sprite_iff edge x y n.toNat s).mp hc)]; rfl
  · rw [State.drawnSprite, State.readV_writeV, if_neg hr]; rfl

/-! ### The obligations -/

/-- Settles O48: the draw with all rows in memory, for both values of `DRAW_EDGE`, or the shared fault entry. -/
theorem drwInvertsCoveredPixels : Obligations.DrwInvertsCoveredPixels := by
  refine fun x y n s => ⟨decode_formatXYN_drw x y n, fun h => ?_, fun h => ?_⟩
  · have hin : n.toNat = 0 ∨ s.i.toNat + n.toNat ≤ 0x1000 := by omega
    exact ⟨⟨_, exec_drw_of_inside hin x y, drawnFrom_drawnSprite .wrap x y n s⟩,
      ⟨_, drawSprite_of_inside hin .clip x y, drawnFrom_drawnSprite .clip x y n s⟩⟩
  · exact ⟨_, exec_drw_of_outside h.1 (by omega) x y, s.raise_latches (.addressOutOfRange _) _⟩

/-- The sprite of a state is read from its memory, I and the two registers. -/
theorem spriteCovers_congr {s u : State} {x y : RegNum} (hmem : u.mem = s.mem) (hi : u.i = s.i)
    (hx : u.readV x = s.readV x) (hy : u.readV y = s.readV y) (edge : DrawEdge) (n : Nat) (px : Fin 64) (py : Fin 32) :
    SpriteCovers edge u x y n px py ↔ SpriteCovers edge s x y n px py := by
  simp only [SpriteCovers, hmem, hi, hx, hy]

/-- A draw that raised no fault drew: its rows are in memory (R35). -/
theorem inside_of_exec_drw {x y : RegNum} {n : Nibble} {s t : State} (hexec : exec (.drw x y n) s = .next t)
    (hok : t.fault = none) : n.toNat = 0 ∨ s.i.toNat + n.toNat ≤ 0x1000 := by
  by_contra hout
  obtain rfl := Host.Outcome.next.inj ((exec_drw_of_outside (by omega) (by omega) x y).symm.trans hexec)
  cases hok

/-- What two draws of one sprite leave: the first framebuffer, and VF for a covered pixel that was off in it. -/
theorem drawnFrom_twice {edge : DrawEdge} {x y : RegNum} {n : Nat} {s t u v : State} (ht : DrawnFrom edge x y n s t)
    (hv : DrawnFrom edge x y n u v) (hfb : u.fb = t.fb)
    (hcovers : ∀ px py, SpriteCovers edge u x y n px py ↔ SpriteCovers edge s x y n px py) :
    Same .fb s v ∧ (v.readV vf = 1 ↔ ∃ px py, SpriteCovers edge s x y n px py ∧ pixel s.fb px py = false) := by
  obtain ⟨htpix, -⟩ := ht
  obtain ⟨hvpix, hhit, hmiss, -⟩ := hv
  simp only [hcovers, hfb, htpix] at hvpix hhit hmiss
  have hcollides : (∃ px py, SpriteCovers edge s x y n px py ∧
      (pixel s.fb px py = true ↔ ¬SpriteCovers edge s x y n px py)) ↔
      ∃ px py, SpriteCovers edge s x y n px py ∧ pixel s.fb px py = false := by
    refine exists_congr fun px => exists_congr fun py => and_congr_right fun hc => ?_
    simp [hc]
  rw [hcollides] at hhit hmiss
  refine ⟨fun px py => Bool.eq_iff_iff.mpr ((hvpix px py).trans ?_), fun h1 => ?_, hhit⟩
  · by_cases hc : SpriteCovers edge s x y n px py <;> simp [hc]
  · by_contra hno
    rw [hmiss hno] at h1
    exact absurd h1 (by decide)

/-- Settles O49: both draws take place, and the second inverts what the first inverted. -/
theorem drawingTwiceRestoresFramebuffer : Obligations.DrawingTwiceRestoresFramebuffer := by
  intro x y n s t u v _ hst htf hfb huf hmem hi hx hy huv
  have hin := inside_of_exec_drw hst htf
  obtain rfl := Host.Outcome.next.inj ((exec_drw_of_inside hin x y).symm.trans hst)
  obtain rfl := Host.Outcome.next.inj ((exec_drw_of_inside (hi ▸ hin) x y).symm.trans huv)
  obtain ⟨hsame, hvf⟩ := drawnFrom_twice (drawnFrom_drawnSprite .wrap x y n s) (drawnFrom_drawnSprite .wrap x y n u) hfb
    (spriteCovers_congr hmem hi hx hy .wrap n.toNat)
  refine ⟨hsame, huf, hvf, fun hoff => hvf.trans ?_⟩
  exact exists_congr fun px => exists_congr fun py => and_iff_left_of_imp (hoff px py)

end Sys2Proof.Machine
end

section
/-! PROOFS. Timer accesses, key skips and the key wait (spec/44_timers_keypad.md R95 to R100), and the obligations O50,
O51, O52 and O53. -/

namespace Sys2Proof.Machine

/-! ### Frames -/

/-- Nothing is changed by staying. -/
theorem UnchangedBut.refl (ps : List Part) (s : State) : UnchangedBut ps s s :=
  UnchangedBut.of_fields (.inr rfl) (.inr rfl) (.inr rfl) (.inr rfl) (.inr rfl) (.inr rfl) (.inr rfl) (.inr rfl)
    (.inr rfl) (.inr rfl) (.inr rfl)

/-- The frame of an instruction that writes DT and advances PC. -/
theorem unchangedBut_advance_setDt (s : State) (b : Byte) : UnchangedBut [.dt, .pc] s (s.advance.setDt b) :=
  UnchangedBut.of_fields (.inr rfl) (.inr rfl) (.inr rfl) (.inl (by decide)) (.inr rfl) (.inl (by decide)) (.inr rfl)
    (.inr rfl) (.inr rfl) (.inr rfl) (.inr rfl)

/-- The frame of an instruction that writes ST and advances PC. -/
theorem unchangedBut_advance_setSt (s : State) (b : Byte) : UnchangedBut [.st, .pc] s (s.advance.setSt b) :=
  UnchangedBut.of_fields (.inr rfl) (.inr rfl) (.inr rfl) (.inl (by decide)) (.inr rfl) (.inr rfl) (.inl (by decide))
    (.inr rfl) (.inr rfl) (.inr rfl) (.inr rfl)

/-! ### The meanings -/

/-- LD Vx, DT (R95). -/
theorem exec_ldVxDt (x : RegNum) (s : State) : exec (.ldVxDt x) s = .next (s.advance.writeV x s.dt) := rfl

/-- LD DT, Vx (R96). -/
theorem exec_ldDtVx (x : RegNum) (s : State) : exec (.ldDtVx x) s = .next (s.advance.setDt (s.readV x)) := rfl

/-- LD ST, Vx (R97). -/
theorem exec_ldStVx (x : RegNum) (s : State) : exec (.ldStVx x) s = .next (s.advance.setSt (s.readV x)) := rfl

/-- A byte that is a key number names that key, for both values of `KEY_INDEX_POLICY` (R98, R99). -/
theorem keyNumber_of_eq (policy : KeyIndexPolicy) {b : Byte} {k : RegNum} (h : b.toNat = k.val) :
    keyNumber policy b = .ok k := by
  have hlt : b.toNat < 16 := h ▸ k.isLt
  rw [keyNumber_ok policy hlt]
  exact congrArg Except.ok (Fin.ext h)

/-- SKP Vx with a key number in Vx (R98). -/
theorem exec_skp_of_key {x : RegNum} {s : State} {k : RegNum} (h : (s.readV x).toNat = k.val) :
    exec (.skp x) s = .next (s.setPc (if s.keyDown k then s.pc + 4 else s.pc + 2)) := by
  simp only [exec, execSkp, keySkip, keyNumber_of_eq Params.keyIndexPolicy h, attempt_ok, State.advance_skipIf,
    beq_true]

/-- SKNP Vx with a key number in Vx (R99). -/
theorem exec_sknp_of_key {x : RegNum} {s : State} {k : RegNum} (h : (s.readV x).toNat = k.val) :
    exec (.sknp x) s = .next (s.setPc (if s.keyDown k then s.pc + 2 else s.pc + 4)) := by
  simp only [exec, execSknp, keySkip, keyNumber_of_eq Params.keyIndexPolicy h, attempt_ok, State.advance_skipIf,
    beq_false]
  cases s.keyDown k <;> rfl

/-- A key skip with no key number in Vx raises (R98, R99; the spec's decision D13). -/
theorem keySkip_of_no_key {x : RegNum} {s : State} (h : 0xF < (s.readV x).toNat) (down : Bool) :
    keySkip Params.keyIndexPolicy down x s = .error (.keyIndexOutOfRange (s.readV x)) := by
  have hkey : keyNumber Params.keyIndexPolicy (s.readV x) = .error (.keyIndexOutOfRange (s.readV x)) := keyNumber_fault h
  simp only [keySkip, hkey]

/-- SKP Vx with no key number in Vx (R98). -/
theorem exec_skp_of_no_key {x : RegNum} {s : State} (h : 0xF < (s.readV x).toNat) :
    exec (.skp x) s = .next (s.raise (.keyIndexOutOfRange (s.readV x)) (some (encode (.skp x)))) := by
  simp only [exec, execSkp, keySkip_of_no_key h, attempt_error]

/-- SKNP Vx with no key number in Vx (R99). -/
theorem exec_sknp_of_no_key {x : RegNum} {s : State} (h : 0xF < (s.readV x).toNat) :
    exec (.sknp x) s = .next (s.raise (.keyIndexOutOfRange (s.readV x)) (some (encode (.sknp x)))) := by
  simp only [exec, execSknp, keySkip_of_no_key h, attempt_error]

/-- LD Vx, K with nothing to choose from (R100). -/
theorem exec_ldVxK_of_nil {s : State} (h : s.pressed = []) (x : RegNum) : exec (.ldVxK x) s = .next s := by
  simp only [exec, execLdVxK, h]
  rfl

/-- LD Vx, K with a choice among the pressed keys (R100, M14). -/
theorem exec_ldVxK_of_cons {s : State} {k : RegNum} {ks : List RegNum} (h : s.pressed = k :: ks) (x : RegNum) :
    exec (.ldVxK x) s = .next (s.advance.drawn.writeV x (BitVec.ofNat 8 (s.drawFrom k ks).val)) := by
  simp only [exec, execLdVxK, h]

/-- LD Vx, K with no key pressed stays (R100). -/
theorem exec_ldVxK_of_released {s : State} (h : ∀ k, s.keyDown k = false) (x : RegNum) :
    exec (.ldVxK x) s = .next s := by
  refine exec_ldVxK_of_nil (List.eq_nil_iff_forall_not_mem.mpr fun k hk => ?_) x
  rw [State.mem_pressed, h k] at hk
  cases hk

/-- LD Vx, K with a key pressed stores the number of a pressed key (R100). -/
theorem exec_ldVxK_of_pressed {s : State} {k : RegNum} (h : s.keyDown k = true) (x : RegNum) :
    ∃ j, s.keyDown j = true ∧ exec (.ldVxK x) s = .next (s.advance.drawn.writeV x (BitVec.ofNat 8 j.val)) := by
  cases hp : s.pressed with
  | nil => exact absurd ((s.mem_pressed k).mpr h) (hp ▸ List.not_mem_nil)
  | cons k' ks =>
    have hdown : s.keyDown (s.drawFrom k' ks) = true := (s.mem_pressed _).mp (hp ▸ s.drawFrom_mem k' ks)
    exact ⟨_, hdown, exec_ldVxK_of_cons hp x⟩

/-! ### The obligations -/

/-- Settles O50: each instruction is one write on the advanced state. -/
theorem timerTransfers : Obligations.TimerTransfers := fun x s =>
  ⟨decodeReadsEncodedInstruction (.ldVxDt x) rfl, decodeReadsEncodedInstruction (.ldDtVx x) rfl,
    decodeReadsEncodedInstruction (.ldStVx x) rfl,
    ⟨_, exec_ldVxDt x s, fun r => s.readV_advance_writeV x r s.dt, rfl, unchangedBut_advance_writeV s x _⟩,
    ⟨_, exec_ldDtVx x s, rfl, rfl, unchangedBut_advance_setDt s _⟩,
    ⟨_, exec_ldStVx x s, rfl, rfl, unchangedBut_advance_setSt s _⟩⟩

/-- Settles O51: a key number decides the move of PC, and any other byte ends in the shared fault entry. -/
theorem skipsOnKey : Obligations.SkipsOnKey := fun x s =>
  ⟨decodeReadsEncodedInstruction (.skp x) rfl, decodeReadsEncodedInstruction (.sknp x) rfl,
    fun _ h => ⟨⟨_, exec_skp_of_key h, rfl, unchangedBut_setPc s _⟩,
      ⟨_, exec_sknp_of_key h, rfl, unchangedBut_setPc s _⟩⟩,
    fun h => ⟨⟨_, exec_skp_of_no_key h, s.raise_latches (.keyIndexOutOfRange _) _⟩,
      ⟨_, exec_sknp_of_no_key h, s.raise_latches (.keyIndexOutOfRange _) _⟩⟩⟩

/-- Settles O52: with a key pressed one write of its number to Vx, with none the state itself. -/
theorem keyWaitStoresPressedKey : Obligations.KeyWaitStoresPressedKey := by
  refine fun x s => ⟨decodeReadsEncodedInstruction (.ldVxK x) rfl, fun ⟨k, hk⟩ => ?_, fun h => ?_⟩
  · obtain ⟨j, hj, hexec⟩ := exec_ldVxK_of_pressed hk x
    have hbyte : (BitVec.ofNat 8 j.val).toNat = j.val := Nat.mod_eq_of_lt (by omega)
    refine ⟨_, j, hexec, hj, fun r => ?_, rfl, unchangedBut_advance_drawn_writeV s x _⟩
    rw [State.readV_writeV, apply_ite BitVec.toNat, hbyte, State.readV_drawn, State.readV_advance]
  · exact ⟨s, exec_ldVxK_of_released h x, UnchangedBut.refl [] s⟩

/-- Settles O53: the step executes the key wait, which stays. -/
theorem waitingCoreKeepsItsState : Obligations.WaitingCoreKeepsItsState := fun x _ ⟨hrun, hreleased⟩ =>
  (step_of_aboutToRun hrun).trans (exec_ldVxK_of_released hreleased x)

end Sys2Proof.Machine
end

section
/-! PROOFS. The host's calls, the rest (spec/60_exceptions.md R108, R114, R117, spec/70_reset_and_hazards.md R124): what
each part is after a load, and the obligations O14, O55 and O58. -/

namespace Sys2Proof.Machine

/-! ### Memory after a load -/

theorem State.loaded_mem (clearsI : Bool) (residue : LoadResidue) (rom : List Byte) (s : State) :
    (s.loaded clearsI residue rom).mem = Memory.writeBytes s.mem 0x200 (loadImage residue rom) := rfl

/-- The image of a ROM that fits ends within memory (R122, R124). -/
theorem length_loadImage_le (residue : LoadResidue) {rom : List Byte} (h : rom.length ≤ 3584) :
    (loadImage residue rom).length ≤ 3584 := by
  cases residue with
  | preserve => exact h
  | zero =>
    rw [loadImage, List.length_append, List.length_replicate, maxRom_eq]
    omega

/-- A load leaves the bytes below 0x200 (R124). -/
theorem State.read_loaded_below (clearsI : Bool) (residue : LoadResidue) (rom : List Byte) (s : State) {a : Nat}
    (h : a < 0x200) : Memory.read (s.loaded clearsI residue rom).mem a = Memory.read s.mem a := by
  rw [State.loaded_mem, Memory.read_writeBytes_outside _ (.inl h)]

/-- A load leaves or clears the bytes above the ROM, by `LOAD_RESIDUE` (R124). -/
theorem State.read_loaded_above (clearsI : Bool) (residue : LoadResidue) {rom : List Byte} (s : State) {a : Nat}
    (hlow : 0x200 + rom.length ≤ a) (hhigh : a ≤ 0xFFF) : Memory.read (s.loaded clearsI residue rom).mem a =
      if residue = .zero then 0 else Memory.read s.mem a := by
  rw [State.loaded_mem]
  cases residue with
  | preserve => rw [loadImage, Memory.read_writeBytes_outside _ (.inr hlow), if_neg nofun]
  | zero =>
    have hlen : (loadImage .zero rom).length = rom.length + (3584 - rom.length) := by
      rw [loadImage, List.length_append, List.length_replicate, maxRom_eq]
    rw [Memory.read_writeBytes, if_pos ⟨by omega, by omega⟩, if_pos rfl, loadImage,
      List.getD_append_right _ _ _ _ (by omega), List.getD_replicate _ (by rw [maxRom_eq]; omega)]

/-- A load clears the registers (R124). -/
theorem State.readV_loaded (clearsI : Bool) (residue : LoadResidue) (rom : List Byte) (s : State) (r : RegNum) :
    (s.loaded clearsI residue rom).readV r = 0 := by
  simp [State.readV, State.loaded]

/-- The frame of a load (R124). -/
theorem unchangedBut_loaded (clearsI : Bool) (residue : LoadResidue) (rom : List Byte) (s : State) :
    UnchangedBut [.mem, .pc, .v, .stack, .dt, .st, .i, .fault] s (s.loaded clearsI residue rom) :=
  UnchangedBut.of_fields (.inl (by decide)) (.inl (by decide)) (.inl (by decide)) (.inl (by decide)) (.inl (by decide))
    (.inl (by decide)) (.inl (by decide)) (.inr rfl) (.inr rfl) (.inl (by decide)) (.inr rfl)

/-! ### The calls -/

/-- `load` of any ROM: rejected and without effect, or the loaded state (R122 to R124). -/
theorem respond_load_cases (rom : List Byte) (s : State) :
    (rom.length ≤ 3584 ∧ respond (.load rom) s = .next (s.loaded Config.loadClearsI Config.loadResidue rom, .ok)) ∨
      respond (.load rom) s = .next (s, .romTooLarge) := by
  rcases Nat.lt_or_ge 3584 rom.length with h | h
  · exact .inr (respond_load_romTooLarge s h)
  · exact .inl ⟨h, respond_load_ok s h⟩

/-- `set_key` (R114). -/
theorem respond_setKey (k : RegNum) (p : Bool) (s : State) :
    respond (.setKey k p) s = .next (s.writeKey k p, .nothing) := rfl

/-- The frame of `set_key` (R114). -/
theorem unchangedBut_writeKey (s : State) (k : RegNum) (p : Bool) : UnchangedBut [.key] s (s.writeKey k p) :=
  UnchangedBut.of_fields (.inr rfl) (.inr rfl) (.inr rfl) (.inr rfl) (.inr rfl) (.inr rfl) (.inr rfl) (.inr rfl)
    (.inl (by decide)) (.inr rfl) (.inr rfl)

/-! ### The obligations -/

/-- Settles O14: call by call; of those that change the state only `load` writes the latch. -/
theorem onlyLoadClearsTheLatch : Obligations.OnlyLoadClearsTheLatch := by
  intro c s t reply r hlatched hcall
  cases c with
  | load rom =>
    rcases respond_load_cases rom s with ⟨-, hload⟩ | hload
    · cases hload.symm.trans hcall
      exact .inr ⟨rom, rfl, rfl, rfl⟩
    · cases hload.symm.trans hcall
      exact .inl hlatched
  | step =>
    cases (latchedCoreExecutesNothing s r hlatched).2.symm.trans hcall
    exact .inl hlatched
  | tickTimers => cases hcall; exact .inl hlatched
  | setKey k p => cases hcall; exact .inl hlatched
  | framebufferView => cases hcall; exact .inl hlatched
  | isSoundActive => cases hcall; exact .inl hlatched

/-- Settles O55: one write of a key. -/
theorem setKeyWritesOneKey : Obligations.SetKeyWritesOneKey := fun k p s =>
  ⟨_, respond_setKey k p s, fun j => s.keyDown_writeKey k j p, unchangedBut_writeKey s k p⟩

/-- Settles O58: part by part of the loaded state, for any values of the two OPEN parameters. -/
theorem loadReinitialisesCore : Obligations.LoadReinitialisesCore := fun rom s hfits =>
  ⟨⟨_, respond_load_ok s hfits, State.loadWith_ok _ _ s hfits⟩, fun clearsI residue =>
    ⟨_, State.loadWith_ok clearsI residue s hfits, fun _ ha => s.read_loaded_below clearsI residue rom ha,
      fun _ hk => s.read_loaded_rom clearsI residue hk,
      fun _ hlow hhigh => s.read_loaded_above clearsI residue hlow hhigh,
      rfl, s.readV_loaded clearsI residue rom, rfl, rfl, rfl, rfl, rfl, unchangedBut_loaded clearsI residue rom s⟩⟩

end Sys2Proof.Machine
end

section
/-! PROOFS. What every instruction can do (spec/30_encoding.md R56, R57, spec/60_exceptions.md R103 to R106), said once:
the shapes of the state after an instruction that raises no fault, and the faults it raises; and the obligations O10, O11,
O12, O13, O15 and O16. -/

namespace Sys2Proof.Machine

/-! ### The faults of an instruction -/

/-- `c` is a fault of the kind `i` can raise, and the record the step makes of it has the form of that kind (R103,
R106). -/
structure RaisedBy (i : Instr) (c : Cause) : Prop where
  /-- the kind R106 gives the instruction -/
  kind : faultKindOf i = some (kindOf c)
  /-- the form R102 and R103 give the record -/
  record : ∀ pc, recordOk { kind := kindOf c, pc := pc, opcode := some (encode i), info := infoOf c }

theorem RaisedBy.unknownInstruction {i : Instr} (h : faultKindOf i = some .unknownInstruction) :
    RaisedBy i (.unknownInstruction (encode i)) := ⟨h, fun _ => ⟨_, rfl, rfl⟩⟩

theorem RaisedBy.stackOverflow {i : Instr} (h : faultKindOf i = some .stackOverflow) : RaisedBy i .stackOverflow :=
  ⟨h, fun _ => ⟨nofun, rfl⟩⟩

theorem RaisedBy.stackUnderflow {i : Instr} (h : faultKindOf i = some .stackUnderflow) : RaisedBy i .stackUnderflow :=
  ⟨h, fun _ => ⟨nofun, rfl⟩⟩

theorem RaisedBy.addressOutOfRange {i : Instr} (h : faultKindOf i = some .addressOutOfRange) {a : Nat} (ha : 0xFFF < a) :
    RaisedBy i (.addressOutOfRange a) := ⟨h, fun _ => ⟨a, ha, rfl⟩⟩

/-- The address the arbiter reports lies outside memory (R35). -/
theorem RaisedBy.lowestAddress {i : Instr} (h : faultKindOf i = some .addressOutOfRange) (a : Nat) :
    RaisedBy i (.addressOutOfRange (max a 0x1000)) := .addressOutOfRange h (by omega)

theorem RaisedBy.keyIndexOutOfRange {i : Instr} (h : faultKindOf i = some .keyIndexOutOfRange) {b : Byte}
    (hb : 15 < b.toNat) : RaisedBy i (.keyIndexOutOfRange b) := ⟨h, fun _ => ⟨nofun, b, hb, rfl⟩⟩

/-! ### The state after an instruction -/

/-- The registers in `v` are those of `s` but for the ones `i` names. -/
def KeepsOthers (i : Instr) (s : State) (v : Vector Byte 16) : Prop :=
  ∀ r, State.readV { s with v := v } r = s.readV r ∨ writesReg i r = true

/-- What `i` makes of `s` when it raises no fault, by the parts it writes: one constructor per group of instructions that
write the same parts, with the bounds on what they write (R13 to R26, R57). -/
inductive Completes (s : State) (i : Instr) : State → Prop
  | movesPc (w : Word) (hi : writesPc i = true) (hw : s.pc.toNat ≤ 0xFFE → w.toNat ≤ 0x1002) :
    Completes s i (s.setPc w)
  | pops (ws : List Word) (w : Word) (hi : i = .ret) (hs : s.stack = ws ++ [w]) :
    Completes s i ({ s with stack := ws }.setPc w)
  | pushes (w : Word) (hi : ∃ nnn, i = .call nnn) (hs : s.stack.length < 16) (hw : w.toNat ≤ 0xFFF) :
    Completes s i ({ s with stack := s.stack ++ [s.pc + 2] }.setPc w)
  | writesV (v : Vector Byte 16) (hv : KeepsOthers i s v) : Completes s i { s.advance with v := v }
  | writesDrawnV (v : Vector Byte 16) (hi : ∃ x kk, i = .rnd x kk ∨ i = .ldVxK x) (hv : KeepsOthers i s v) :
    Completes s i { s.advance.drawn with v := v }
  | writesI (w : Word) (hi : ∃ nnn x, i = .ldI nnn ∨ i = .addI x ∨ i = .ldF x) (hw : w.toNat ≤ 0xFFF) :
    Completes s i (s.advance.setI w)
  | writesMem (bs : List Byte) (hi : ∃ x, i = .ldB x ∨ i = .ldMemVx x) (hs : s.i.toNat + bs.length ≤ 0x1000) :
    Completes s i { s.advance with mem := Memory.writeBytes s.mem s.i.toNat bs }
  | writesFb (fb : Frame) (v : Vector Byte 16) (hi : i = .cls ∨ ∃ x y n, i = .drw x y n) (hv : KeepsOthers i s v) :
    Completes s i { s.advance with fb := fb, v := v }
  | writesDt (b : Byte) (hi : ∃ x, i = .ldDtVx x) : Completes s i (s.advance.setDt b)
  | writesSt (b : Byte) (hi : ∃ x, i = .ldStVx x) : Completes s i (s.advance.setSt b)

/-- How `i` ends from `s`: with its effect, or with the fault it raises (R56, R104). -/
def Ends (i : Instr) (s t : State) : Prop :=
  Completes s i t ∨ ∃ c, RaisedBy i c ∧ t = s.raise c (some (encode i))

section
variable {i : Instr} {s : State}

theorem Ends.raised {c : Cause} (h : RaisedBy i c) : Ends i s (s.raise c (some (encode i))) := .inr ⟨c, h, rfl⟩

/-- The register file is as before. -/
theorem KeepsOthers.refl : KeepsOthers i s s.v := fun _ => .inl rfl

/-- A write to a register the instruction names. -/
theorem KeepsOthers.set {v : Vector Byte 16} (hv : KeepsOthers i s v) {x : RegNum} (hx : writesReg i x = true)
    (b : Byte) : KeepsOthers i s (v.set x.val b) := by
  intro r
  have hread : State.readV { s with v := v.set x.val b } r = if r = x then b else State.readV { s with v := v } r :=
    State.readV_writeV { s with v := v } x r b
  rw [hread]
  split
  case isTrue hr => exact .inr (hr ▸ hx)
  case isFalse => exact hv r

/-- An instruction that writes the register it names. -/
theorem Ends.writeV {x : RegNum} (hx : writesReg i x = true) (b : Byte) : Ends i s (s.advance.writeV x b) :=
  .inl (.writesV _ (KeepsOthers.refl.set hx b))

/-- An instruction that writes the register it names and then VF. -/
theorem Ends.writeResultFlag {x : RegNum} (hx : writesReg i x = true) (hvf : writesReg i vf = true) (b : Byte)
    (flag : Bool) : Ends i s (s.advance.writeResultFlag x b flag) :=
  .inl (.writesV _ ((KeepsOthers.refl.set hx b).set hvf (flagByte flag)))

/-- A skip or the advance after PC moves it by at most 4 (R57). -/
theorem toNat_skip_le {pc a b : Word} (hpc : pc.toNat ≤ 0xFFE) (ha : a.toNat ≤ 4) (hb : b.toNat ≤ 4) (c : Prop)
    [Decidable c] : (if c then pc + a else pc + b).toNat ≤ 0x1002 := by
  split <;> rw [BitVec.toNat_add] <;> omega

/-- An instruction that skips or not. -/
theorem Ends.skip (hi : writesPc i = true) {a b : Word} (ha : a.toNat ≤ 4) (hb : b.toNat ≤ 4) (c : Prop) [Decidable c] :
    Ends i s (s.setPc (if c then s.pc + a else s.pc + b)) :=
  .inl (.movesPc _ hi fun hpc => toNat_skip_le hpc ha hb c)

end

/-! ### Every instruction ends -/

theorem toNat_zext16_le (nnn : Addr12) : (zext16 nnn).toNat ≤ 0xFFF := by
  rw [toNat_zext16]
  exact Nat.le_of_lt_succ nnn.isLt

/-- RET ends (R62). -/
theorem ret_ends (s : State) : ∃ t, exec .ret s = .next t ∧ Ends .ret s t := by
  rcases List.eq_nil_or_concat' s.stack with h | ⟨ws, w, h⟩
  · exact ⟨_, exec_ret_of_empty h, .raised (.stackUnderflow rfl)⟩
  · exact ⟨_, exec_ret_of_stack h, .inl (.pops ws w rfl h)⟩

/-- CALL ends (R64). -/
theorem call_ends (nnn : Addr12) (s : State) : ∃ t, exec (.call nnn) s = .next t ∧ Ends (.call nnn) s t := by
  rcases Nat.lt_or_ge s.stack.length 16 with h | h
  · exact ⟨_, exec_call_of_room h nnn, .inl (.pushes _ ⟨nnn, rfl⟩ h (toNat_zext16_le nnn))⟩
  · exact ⟨_, exec_call_of_full h nnn, .raised (.stackOverflow rfl)⟩

/-- JP V0 ends (R65). -/
theorem jpV0_ends (nnn : Addr12) (s : State) : ∃ t, exec (.jpV0 nnn) s = .next t ∧ Ends (.jpV0 nnn) s t := by
  rcases Nat.lt_or_ge 0xFFF (nnn.toNat + (s.readV 0).toNat) with h | h
  · exact ⟨_, exec_jpV0_of_gt h, .raised (.addressOutOfRange rfl h)⟩
  · exact ⟨_, exec_jpV0_of_le h, .inl (.movesPc _ rfl fun _ => by rw [BitVec.toNat_ofNat]; omega)⟩

/-- ADD I ends (R85). -/
theorem addI_ends (x : RegNum) (s : State) : ∃ t, exec (.addI x) s = .next t ∧ Ends (.addI x) s t := by
  rcases Nat.lt_or_ge 0xFFF (s.i.toNat + (s.readV x).toNat) with h | h
  · exact ⟨_, exec_addI_of_gt h, .raised (.addressOutOfRange rfl h)⟩
  · exact ⟨_, exec_addI_of_le h, .inl (.writesI _ ⟨0, x, .inr (.inl rfl)⟩ (by rw [BitVec.toNat_ofNat]; omega))⟩

/-- LD F ends (R86). -/
theorem ldF_ends (x : RegNum) (s : State) : ∃ t, exec (.ldF x) s = .next t ∧ Ends (.ldF x) s t :=
  ⟨_, exec_ldF x s, .inl (.writesI _ ⟨0, x, .inr (.inr rfl)⟩ (by rw [toNat_glyphAddress]; omega))⟩

/-- LD B ends (R87). -/
theorem ldB_ends (x : RegNum) (s : State) : ∃ t, exec (.ldB x) s = .next t ∧ Ends (.ldB x) s t := by
  rcases Nat.lt_or_ge 0xFFF (s.i.toNat + 2) with h | h
  · exact ⟨_, exec_ldB_of_gt h x, .raised (.lowestAddress rfl _)⟩
  · exact ⟨_, exec_ldB_of_le h x, .inl (.writesMem _ ⟨x, .inl rfl⟩ (by rw [length_decimalDigits]; omega))⟩

/-- Fx55 ends (R88). -/
theorem ldMemVx_ends (x : RegNum) (s : State) : ∃ t, exec (.ldMemVx x) s = .next t ∧ Ends (.ldMemVx x) s t := by
  rcases Nat.lt_or_ge 0xFFF (s.i.toNat + x.val) with h | h
  · exact ⟨_, exec_ldMemVx_of_gt h, .raised (.lowestAddress rfl _)⟩
  · exact ⟨_, exec_ldMemVx_of_le h, .inl (.writesMem _ ⟨x, .inr rfl⟩ (by rw [State.length_readVsTo]; omega))⟩

/-- Fx65 ends (R89). -/
theorem ldVxMem_ends (x : RegNum) (s : State) : ∃ t, exec (.ldVxMem x) s = .next t ∧ Ends (.ldVxMem x) s t := by
  rcases Nat.lt_or_ge 0xFFF (s.i.toNat + x.val) with h | h
  · exact ⟨_, exec_ldVxMem_of_gt h, .raised (.lowestAddress rfl _)⟩
  · refine ⟨_, exec_ldVxMem_of_le h, .inl ?_⟩
    rw [State.writeVs_eq]
    refine .writesV _ fun r => ?_
    have hread := State.readV_writeVs_readBytes s.advance s.mem s.i.toNat (x.val + 1) r
    by_cases hr : r.val < x.val + 1
    · exact .inr (decide_eq_true (Nat.le_of_lt_succ hr))
    · exact .inl (hread.trans (if_neg hr))

/-- Dxyn ends (R91). -/
theorem drw_ends (x y : RegNum) (n : Nibble) (s : State) : ∃ t, exec (.drw x y n) s = .next t ∧ Ends (.drw x y n) s t := by
  by_cases h : n.toNat = 0 ∨ s.i.toNat + n.toNat ≤ 0x1000
  · exact ⟨_, exec_drw_of_inside h x y,
      .inl (.writesFb _ _ (.inr ⟨x, y, n, rfl⟩) (KeepsOthers.refl.set (by simp [writesReg]) _))⟩
  · exact ⟨_, exec_drw_of_outside (by omega) (by omega) x y, .raised (.lowestAddress rfl _)⟩

/-- SKP ends (R98). -/
theorem skp_ends (x : RegNum) (s : State) : ∃ t, exec (.skp x) s = .next t ∧ Ends (.skp x) s t := by
  rcases Nat.lt_or_ge (s.readV x).toNat 16 with h | h
  · exact ⟨_, exec_skp_of_key (k := ⟨_, h⟩) rfl, .skip rfl (by decide) (by decide) _⟩
  · exact ⟨_, exec_skp_of_no_key h, .raised (.keyIndexOutOfRange rfl h)⟩

/-- SKNP ends (R99). -/
theorem sknp_ends (x : RegNum) (s : State) : ∃ t, exec (.sknp x) s = .next t ∧ Ends (.sknp x) s t := by
  rcases Nat.lt_or_ge (s.readV x).toNat 16 with h | h
  · exact ⟨_, exec_sknp_of_key (k := ⟨_, h⟩) rfl, .skip rfl (by decide) (by decide) _⟩
  · exact ⟨_, exec_sknp_of_no_key h, .raised (.keyIndexOutOfRange rfl h)⟩

/-- LD Vx, K ends (R100). -/
theorem ldVxK_ends (x : RegNum) (s : State) : ∃ t, exec (.ldVxK x) s = .next t ∧ Ends (.ldVxK x) s t := by
  cases hp : s.pressed with
  | nil => exact ⟨_, exec_ldVxK_of_nil hp x, .inl (.movesPc s.pc rfl fun hpc => by omega)⟩
  | cons k ks =>
    exact ⟨_, exec_ldVxK_of_cons hp x,
      .inl (.writesDrawnV _ ⟨x, 0, .inr rfl⟩ (KeepsOthers.refl.set (by simp [writesReg]) _))⟩

/-- Every instruction ends from every state, in one of the shapes of its group or in a fault of its kind (R56, R111). -/
theorem exec_ends (i : Instr) (s : State) : ∃ t, exec i s = .next t ∧ Ends i s t := by
  cases i with
  | sys nnn => exact ⟨_, exec_sys nnn s, .raised (.unknownInstruction rfl)⟩
  | cls => exact ⟨_, exec_cls s, .inl (.writesFb _ s.v (.inl rfl) KeepsOthers.refl)⟩
  | ret => exact ret_ends s
  | jp nnn => exact ⟨_, exec_jp nnn s, .inl (.movesPc _ rfl fun _ => Nat.le_trans (toNat_zext16_le nnn) (by decide))⟩
  | call nnn => exact call_ends nnn s
  | seImm x kk => exact ⟨_, exec_seImm x kk s, .skip rfl (by decide) (by decide) _⟩
  | sneImm x kk => exact ⟨_, exec_sneImm x kk s, .skip rfl (by decide) (by decide) _⟩
  | seReg x y => exact ⟨_, exec_seReg x y s, .skip rfl (by decide) (by decide) _⟩
  | sneReg x y => exact ⟨_, exec_sneReg x y s, .skip rfl (by decide) (by decide) _⟩
  | ldI nnn => exact ⟨_, exec_ldI nnn s, .inl (.writesI _ ⟨nnn, 0, .inl rfl⟩ (toNat_zext16_le nnn))⟩
  | jpV0 nnn => exact jpV0_ends nnn s
  | rnd x kk =>
    exact ⟨_, exec_rnd x kk s, .inl (.writesDrawnV _ ⟨x, kk, .inl rfl⟩ (KeepsOthers.refl.set (by simp [writesReg]) _))⟩
  | drw x y n => exact drw_ends x y n s
  | skp x => exact skp_ends x s
  | sknp x => exact sknp_ends x s
  | ldVxK x => exact ldVxK_ends x s
  | ldDtVx x => exact ⟨_, exec_ldDtVx x s, .inl (.writesDt _ ⟨x, rfl⟩)⟩
  | ldStVx x => exact ⟨_, exec_ldStVx x s, .inl (.writesSt _ ⟨x, rfl⟩)⟩
  | addI x => exact addI_ends x s
  | ldF x => exact ldF_ends x s
  | ldB x => exact ldB_ends x s
  | ldMemVx x => exact ldMemVx_ends x s
  | ldVxMem x => exact ldVxMem_ends x s
  | ldImm x kk | addImm x kk => exact ⟨_, rfl, .writeV (by simp [writesReg]) _⟩
  | ldReg x y | orReg x y | andReg x y | xorReg x y => exact ⟨_, rfl, .writeV (by simp [writesReg]) _⟩
  | ldVxDt x => exact ⟨_, exec_ldVxDt x s, .writeV (by simp [writesReg]) _⟩
  | addReg x y | sub x y | shr x y | subn x y | shl x y =>
    exact ⟨_, rfl, .writeResultFlag (by simp [writesReg]) (by simp [writesReg]) _ _⟩

/-- The inversion of `exec`: what is known of the state an instruction ended in. -/
theorem ends_of_exec {i : Instr} {s t : State} (h : exec i s = .next t) : Ends i s t := by
  obtain ⟨u, hu, hends⟩ := exec_ends i s
  obtain rfl := Host.Outcome.next.inj (hu.symm.trans h)
  exact hends

/-- An instruction that raises no fault leaves the latch (R104). -/
theorem Completes.fault_eq {i : Instr} {s t : State} (h : Completes s i t) : t.fault = s.fault := by
  cases h <;> rfl

/-- A latch set by an instruction holds a fault the instruction raised. -/
theorem raised_of_latched {i : Instr} {s t : State} {r : FaultRecord} (hf : s.fault = none) (h : exec i s = .next t)
    (hr : t.fault = some r) : ∃ c, RaisedBy i c ∧ t = s.raise c (some (encode i)) := by
  refine (ends_of_exec h).resolve_left fun hdone => ?_
  rw [hdone.fault_eq, hf] at hr
  cases hr

/-! ### The obligations -/

/-- Settles O11: the first half of `exec_ends`. -/
theorem everyInstructionEndsInNextState : Obligations.EveryInstructionEndsInNextState := fun i s =>
  (exec_ends i s).imp fun _ h => h.1

/-- Settles O10: a running core takes one of the last three branches of `step_cases`, and the reply reads the latch. -/
theorem runningStepReturnsOkOrFault : Obligations.RunningStepReturnsOkOrFault := by
  intro s hf
  have hstep : ∃ t, step s = .next t := by
    rcases step_cases s with ⟨r, hr, -⟩ | ⟨-, -, h⟩ | ⟨-, -, h⟩ | ⟨i, -, h⟩
    · rw [hf] at hr; cases hr
    · exact ⟨_, h⟩
    · exact ⟨_, h⟩
    · exact (everyInstructionEndsInNextState i s).imp fun _ ht => h.trans ht
  obtain ⟨t, ht⟩ := hstep
  have hreply : respond .step s = .next (t, stepReply t) := by simp only [respond, ht]
  refine ⟨t, ht, ?_⟩
  cases hr : t.fault with
  | none => exact .inl ⟨rfl, by rw [hreply, stepReply, hr]⟩
  | some r => exact .inr ⟨r, rfl, by rw [hreply, stepReply, hr]⟩

/-- Settles O12: the fault goes through the shared fault entry, with the instruction's word. -/
theorem faultDiscardsEveryWrite : Obligations.FaultDiscardsEveryWrite := by
  intro i s t r hf hexec hr
  obtain ⟨c, hc, rfl⟩ := raised_of_latched hf hexec hr
  obtain rfl := Option.some.inj hr
  exact ⟨rfl, rfl, hc.record s.pc, (s.raise_latches c _).2⟩

/-- Settles O13: the fault is one the instruction raises. -/
theorem eachInstructionRaisesItsOwnKind : Obligations.EachInstructionRaisesItsOwnKind := by
  intro i s t r hf hexec hr
  obtain ⟨c, hc, rfl⟩ := raised_of_latched hf hexec hr
  obtain rfl := Option.some.inj hr
  exact hc.kind

/-- Settles O15: shape by shape, the parts the shape writes are those of the instructions of its group. -/
theorem eachPartHasItsWriters : Obligations.EachPartHasItsWriters := by
  intro i s t h
  rcases ends_of_exec h with hdone | ⟨c, hc, rfl⟩
  · cases hdone with
    | movesPc w hi =>
      exact ⟨.of_key rfl, .inl (.of_fb rfl), .inl (.of_mem rfl), .inl rfl, .inl rfl, .inl rfl, .inl rfl,
        fun _ => .inl rfl, .inl rfl, .inr (.inl hi), .inl rfl⟩
    | pops ws w hi =>
      exact ⟨.of_key rfl, .inl (.of_fb rfl), .inl (.of_mem rfl), .inr (.inl hi), .inl rfl, .inl rfl, .inl rfl,
        fun _ => .inl rfl, .inl rfl, .inr (.inl (hi ▸ rfl)), .inl rfl⟩
    | pushes w hi =>
      obtain ⟨nnn, rfl⟩ := hi
      exact ⟨.of_key rfl, .inl (.of_fb rfl), .inl (.of_mem rfl), .inr (.inr ⟨nnn, rfl⟩), .inl rfl, .inl rfl, .inl rfl,
        fun _ => .inl rfl, .inl rfl, .inr (.inl rfl), .inl rfl⟩
    | writesV v hv =>
      exact ⟨.of_key rfl, .inl (.of_fb rfl), .inl (.of_mem rfl), .inl rfl, .inl rfl, .inl rfl, .inl rfl, hv,
        .inl rfl, .inl rfl, .inl rfl⟩
    | writesDrawnV v hi hv =>
      exact ⟨.of_key rfl, .inl (.of_fb rfl), .inl (.of_mem rfl), .inl rfl, .inl rfl, .inl rfl, .inl rfl, hv,
        .inl rfl, .inl rfl, .inr hi⟩
    | writesI w hi =>
      exact ⟨.of_key rfl, .inl (.of_fb rfl), .inl (.of_mem rfl), .inl rfl, .inl rfl, .inl rfl, .inr hi,
        fun _ => .inl rfl, .inl rfl, .inl rfl, .inl rfl⟩
    | writesMem bs hi =>
      exact ⟨.of_key rfl, .inl (.of_fb rfl), .inr hi, .inl rfl, .inl rfl, .inl rfl, .inl rfl,
        fun _ => .inl rfl, .inl rfl, .inl rfl, .inl rfl⟩
    | writesFb fb v hi hv =>
      exact ⟨.of_key rfl, .inr hi, .inl (.of_mem rfl), .inl rfl, .inl rfl, .inl rfl, .inl rfl, hv,
        .inl rfl, .inl rfl, .inl rfl⟩
    | writesDt b hi =>
      exact ⟨.of_key rfl, .inl (.of_fb rfl), .inl (.of_mem rfl), .inl rfl, .inr hi, .inl rfl, .inl rfl,
        fun _ => .inl rfl, .inl rfl, .inl rfl, .inl rfl⟩
    | writesSt b hi =>
      exact ⟨.of_key rfl, .inl (.of_fb rfl), .inl (.of_mem rfl), .inl rfl, .inl rfl, .inr hi, .inl rfl,
        fun _ => .inl rfl, .inl rfl, .inl rfl, .inl rfl⟩
  · exact ⟨.of_key rfl, .inl (.of_fb rfl), .inl (.of_mem rfl), .inl rfl, .inl rfl, .inl rfl, .inl rfl,
      fun _ => .inl rfl, .inr ⟨_, rfl, hc.kind⟩, .inr (.inr ⟨rfl, _, rfl, hc.kind⟩), .inl rfl⟩

/-- Settles O16: the PC clause of O15 for an instruction that is no transfer and raised no fault. -/
theorem otherInstructionsAdvancePcByTwo : Obligations.OtherInstructionsAdvancePcByTwo := by
  intro i s t hi _ hexec hok
  obtain ⟨-, -, -, -, -, -, -, -, -, hpc, -⟩ := eachPartHasItsWriters i s t hexec
  rcases hpc with hpc | hwrites | ⟨-, r, hr, -⟩
  · exact hpc
  · rw [hi] at hwrites; cases hwrites
  · rw [hok] at hr; cases hr

end Sys2Proof.Machine
end

section
/-! PROOFS. The invariant of the machine (spec/10_state.md R16 to R19, spec/60_exceptions.md R103, R107): every shape an
instruction can end in keeps it, and so do the host's other calls; and the obligations O19 and O20. -/

namespace Sys2Proof.Machine

section
variable {s t : State}

/-! ### How the invariant is kept -/

/-- The invariant reads memory, PC, I, the stack and the latch only. -/
theorem CoreInv.congr (h : CoreInv s) (hmem : t.mem = s.mem) (hpc : t.pc = s.pc) (hi : t.i = s.i)
    (hstack : t.stack = s.stack) (hfault : t.fault = s.fault) : CoreInv t where
  canonical := hmem ▸ h.canonical
  inSpace := hmem ▸ h.inSpace
  pcBound := hpc ▸ h.pcBound
  iBound := hi ▸ h.iBound
  depth := hstack ▸ h.depth
  returns := hstack ▸ h.returns
  precise r hr := hpc ▸ h.precise r (hfault ▸ hr)

/-- A running core may take any PC and I within their bounds. -/
theorem CoreInv.move (h : CoreInv s) (hf : t.fault = none) (hmem : t.mem = s.mem) (hstack : t.stack = s.stack)
    (hpc : t.pc.toNat ≤ 0x1002) (hi : t.i.toNat ≤ 0xFFF) : CoreInv t where
  canonical := hmem ▸ h.canonical
  inSpace := hmem ▸ h.inSpace
  pcBound := hpc
  iBound := hi
  depth := hstack ▸ h.depth
  returns := hstack ▸ h.returns
  precise r hr := by rw [hf] at hr; cases hr

/-- A running core may take any stack of at most 16 return addresses. -/
theorem CoreInv.restack (h : CoreInv s) (hf : s.fault = none) {ws : List Word} (hlen : ws.length ≤ 16)
    (hws : ∀ w ∈ ws, w.toNat ≤ 0x1000) : CoreInv { s with stack := ws } where
  canonical := h.canonical
  inSpace := h.inSpace
  pcBound := h.pcBound
  iBound := h.iBound
  depth := hlen
  returns := hws
  precise r hr := by rw [hf] at hr; cases hr

/-- Bytes stored inside the address space keep memory canonical and inside it (R32). -/
theorem CoreInv.store (h : CoreInv s) {a : Nat} {bs : List Byte} (hin : a + bs.length ≤ 0x1000) :
    CoreInv { s with mem := Memory.writeBytes s.mem a bs } where
  canonical := Memory.wf_writeBytes h.canonical a bs
  inSpace := Memory.inSpace_writeBytes h.inSpace hin
  pcBound := h.pcBound
  iBound := h.iBound
  depth := h.depth
  returns := h.returns
  precise := h.precise

/-- The shared fault entry makes a precise record from a cause of the record's form (R103, R107). -/
theorem CoreInv.raise (h : CoreInv s) {c : Cause} {op : Option Word}
    (hrec : recordOk { kind := kindOf c, pc := s.pc, opcode := op, info := infoOf c }) : CoreInv (s.raise c op) where
  canonical := h.canonical
  inSpace := h.inSpace
  pcBound := h.pcBound
  iBound := h.iBound
  depth := h.depth
  returns := h.returns
  precise r hr := by
    obtain rfl := Option.some.inj hr
    exact ⟨rfl, hrec⟩

/-! ### Steps -/

/-- The advance from a fetched address (R18, R57). -/
theorem toNat_advance {pc : Word} (h : pc.toNat ≤ 0xFFE) : (pc + 2).toNat = pc.toNat + 2 := by
  rw [BitVec.toNat_add]
  exact Nat.mod_eq_of_lt (by change pc.toNat + 2 < 65536; omega)

/-- A return address popped is one of the stack's, and the others stay (R21). -/
theorem CoreInv.pop (h : CoreInv s) (hf : s.fault = none) {ws : List Word} {w : Word} (hs : s.stack = ws ++ [w]) :
    CoreInv { s with stack := ws } ∧ w.toNat ≤ 0x1000 := by
  have hdepth := h.depth
  have hreturns := h.returns
  rw [hs] at hdepth hreturns
  rw [List.length_append, List.length_singleton] at hdepth
  exact ⟨h.restack hf (by omega) fun w' hw' => hreturns w' (List.mem_append_left _ hw'),
    hreturns w (List.mem_append_right _ List.mem_cons_self)⟩

/-- A return address pushed on a stack with room is at most 0x1000 (R18, R20). -/
theorem CoreInv.push (h : CoreInv s) (hf : s.fault = none) (hpc : s.pc.toNat ≤ 0xFFE) (hroom : s.stack.length < 16) :
    CoreInv { s with stack := s.stack ++ [s.pc + 2] } := by
  refine h.restack hf ?_ fun w hw => ?_
  · rw [List.length_append, List.length_singleton]
    omega
  · rcases List.mem_append.mp hw with hold | hnew
    · exact h.returns w hold
    · rw [List.mem_singleton.mp hnew, toNat_advance hpc]
      omega

/-- An instruction that was fetched and raises no fault keeps the invariant. -/
theorem CoreInv.completes (h : CoreInv s) (hs : Fetchable s) {i : Instr} (hdone : Completes s i t) : CoreInv t := by
  obtain ⟨hf, hpc⟩ := hs
  have hadv : s.advance.pc.toNat ≤ 0x1002 := by
    rw [State.advance_pc, toNat_advance hpc]
    omega
  cases hdone with
  | movesPc w _ hw => exact h.move hf rfl rfl (hw hpc) h.iBound
  | pops ws w _ hstack =>
    obtain ⟨hinv, hw⟩ := h.pop hf hstack
    exact hinv.move hf rfl rfl (Nat.le_trans hw (by decide)) h.iBound
  | pushes w _ hroom hw => exact (h.push hf hpc hroom).move hf rfl rfl (Nat.le_trans hw (by decide)) h.iBound
  | writesV v | writesDrawnV v | writesFb fb v | writesDt b | writesSt b => exact h.move hf rfl rfl hadv h.iBound
  | writesI w _ hw => exact h.move hf rfl rfl hadv hw
  | writesMem bs _ hin => exact (h.store hin).move hf rfl rfl hadv h.iBound

end

/-- Settles O19: an instruction keeps the invariant by its shape, and every raised fault by the form of its record. -/
theorem stepKeepsInvariant : Obligations.StepKeepsInvariant := by
  intro s t hinv hstep
  rcases step_cases s with ⟨r, -, h⟩ | ⟨-, -, h⟩ | ⟨-, -, h⟩ | ⟨i, ⟨hs, -⟩, h⟩
  · cases h.symm.trans hstep
  · cases h.symm.trans hstep
    exact hinv.raise ⟨_, by omega, rfl⟩
  · cases h.symm.trans hstep
    exact hinv.raise ⟨_, rfl, rfl⟩
  · rcases ends_of_exec (h.symm.trans hstep) with hdone | ⟨c, hc, rfl⟩
    · exact hinv.completes hs hdone
    · exact hinv.raise (hc.record s.pc)

/-! ### Schedules -/

/-- A load of a ROM that fits leaves the invariant, whatever the latch held (R124). -/
theorem CoreInv.loaded {s : State} (h : CoreInv s) (clearsI : Bool) (residue : LoadResidue) {rom : List Byte}
    (hfits : rom.length ≤ 3584) : CoreInv (s.loaded clearsI residue rom) where
  canonical := Memory.wf_writeBytes h.canonical _ _
  inSpace := Memory.inSpace_writeBytes h.inSpace (Nat.add_le_add_left (length_loadImage_le residue hfits) 0x200)
  pcBound := (by decide : (0x200 : Word).toNat ≤ 0x1002)
  iBound := by
    cases clearsI
    · exact h.iBound
    · exact Nat.zero_le _
  depth := Nat.zero_le _
  returns _ hw := absurd hw List.not_mem_nil
  precise _ hr := nomatch hr

/-- Every host call keeps the invariant. -/
theorem coreInv_of_respond {s t : State} (h : CoreInv s) {c : Call} {reply : Reply}
    (hcall : respond c s = .next (t, reply)) : CoreInv t := by
  cases c with
  | load rom =>
    rcases respond_load_cases rom s with ⟨hfits, hload⟩ | hload
    · cases hload.symm.trans hcall
      exact h.loaded _ _ hfits
    · cases hload.symm.trans hcall
      exact h
  | step =>
    cases hf : s.fault with
    | some r =>
      cases (latchedCoreExecutesNothing s r hf).2.symm.trans hcall
      exact h
    | none =>
      obtain ⟨u, hstep, ⟨-, hreply⟩ | ⟨r, -, hreply⟩⟩ := runningStepReturnsOkOrFault s hf
      · cases hreply.symm.trans hcall
        exact stepKeepsInvariant s _ h hstep
      · cases hreply.symm.trans hcall
        exact stepKeepsInvariant s _ h hstep
  | tickTimers => cases hcall; exact h.congr rfl rfl rfl rfl rfl
  | setKey k p => cases hcall; exact h.congr rfl rfl rfl rfl rfl
  | framebufferView => cases hcall; exact h
  | isSoundActive => cases hcall; exact h

/-- A schedule that ends made its first call, and the rest from the state that call left. -/
theorem respondAll_cons_next {c : Call} {cs : List Call} {s t : State} {replies : List Reply}
    (h : respondAll (c :: cs) s = .next (t, replies)) :
    ∃ u reply rest, respond c s = .next (u, reply) ∧ respondAll cs u = .next (t, rest) := by
  rw [respondAll] at h
  split at h
  case h_1 => cases h
  case h_2 => cases h
  case h_3 u reply hcall =>
    split at h
    case h_1 => cases h
    case h_2 => cases h
    case h_3 v rest hrest =>
      cases h
      exact ⟨u, reply, rest, hcall, hrest⟩

/-- Settles O20: by induction over the schedule, each call keeping the invariant. -/
theorem everyScheduleKeepsInvariant : Obligations.EveryScheduleKeepsInvariant := by
  intro cs
  induction cs with
  | nil =>
    intro s t replies h hall
    cases hall
    exact h
  | cons c cs ih =>
    intro s t replies h hall
    obtain ⟨u, reply, rest, hcall, hrest⟩ := respondAll_cons_next hall
    exact ih u t rest (coreInv_of_respond h hcall) hrest

end Sys2Proof.Machine
end

section
/-! PROOFS. The sound timer (spec/10_state.md R23): what each instruction does from a state that differs in ST, and the
obligation O17. -/

namespace Sys2Proof.Machine

/-! ### The instructions -/

theorem State.writeVs_setSt (s : State) (b : Byte) (r : Nat) (bs : List Byte) :
    (s.setSt b).writeVs r bs = (s.writeVs r bs).setSt b := by
  induction bs generalizing s r with
  | nil => rfl
  | cons c bs ih =>
    simp only [State.writeVs]
    split
    case isTrue hr => exact ih (s.writeV ⟨r, hr⟩ c) (r + 1)
    case isFalse => exact ih s (r + 1)

/-- The instruction takes the state and the same state with another ST to states that differ likewise. -/
def CarriesSt (i : Instr) : Prop :=
  ∀ (s : State) (b : Byte), ∃ t, exec i s = .next t ∧ exec i (s.setSt b) = .next (t.setSt b)

theorem carriesSt_ret : CarriesSt .ret := by
  intro s b
  rcases List.eq_nil_or_concat' s.stack with h | ⟨ws, w, h⟩
  · exact ⟨_, exec_ret_of_empty h, exec_ret_of_empty (s := s.setSt b) h⟩
  · exact ⟨_, exec_ret_of_stack h, exec_ret_of_stack (s := s.setSt b) h⟩

theorem carriesSt_call (nnn : Addr12) : CarriesSt (.call nnn) := by
  intro s b
  rcases Nat.lt_or_ge s.stack.length 16 with h | h
  · exact ⟨_, exec_call_of_room h nnn, exec_call_of_room (s := s.setSt b) h nnn⟩
  · exact ⟨_, exec_call_of_full h nnn, exec_call_of_full (s := s.setSt b) h nnn⟩

theorem carriesSt_jpV0 (nnn : Addr12) : CarriesSt (.jpV0 nnn) := by
  intro s b
  rcases Nat.lt_or_ge 0xFFF (nnn.toNat + (s.readV 0).toNat) with h | h
  · exact ⟨_, exec_jpV0_of_gt h, exec_jpV0_of_gt (s := s.setSt b) h⟩
  · exact ⟨_, exec_jpV0_of_le h, exec_jpV0_of_le (s := s.setSt b) h⟩

theorem carriesSt_addI (x : RegNum) : CarriesSt (.addI x) := by
  intro s b
  rcases Nat.lt_or_ge 0xFFF (s.i.toNat + (s.readV x).toNat) with h | h
  · exact ⟨_, exec_addI_of_gt h, exec_addI_of_gt (s := s.setSt b) h⟩
  · exact ⟨_, exec_addI_of_le h, exec_addI_of_le (s := s.setSt b) h⟩

theorem carriesSt_ldB (x : RegNum) : CarriesSt (.ldB x) := by
  intro s b
  rcases Nat.lt_or_ge 0xFFF (s.i.toNat + 2) with h | h
  · exact ⟨_, exec_ldB_of_gt h x, exec_ldB_of_gt (s := s.setSt b) h x⟩
  · exact ⟨_, exec_ldB_of_le h x, exec_ldB_of_le (s := s.setSt b) h x⟩

theorem carriesSt_ldMemVx (x : RegNum) : CarriesSt (.ldMemVx x) := by
  intro s b
  rcases Nat.lt_or_ge 0xFFF (s.i.toNat + x.val) with h | h
  · exact ⟨_, exec_ldMemVx_of_gt h, exec_ldMemVx_of_gt (s := s.setSt b) h⟩
  · exact ⟨_, exec_ldMemVx_of_le h, exec_ldMemVx_of_le (s := s.setSt b) h⟩

theorem carriesSt_ldVxMem (x : RegNum) : CarriesSt (.ldVxMem x) := by
  intro s b
  rcases Nat.lt_or_ge 0xFFF (s.i.toNat + x.val) with h | h
  · exact ⟨_, exec_ldVxMem_of_gt h, exec_ldVxMem_of_gt (s := s.setSt b) h⟩
  · exact ⟨_, exec_ldVxMem_of_le h, (exec_ldVxMem_of_le (s := s.setSt b) h).trans
      (congrArg Host.Outcome.next (s.advance.writeVs_setSt b 0 _))⟩

theorem carriesSt_drw (x y : RegNum) (n : Nibble) : CarriesSt (.drw x y n) := by
  intro s b
  by_cases h : n.toNat = 0 ∨ s.i.toNat + n.toNat ≤ 0x1000
  · exact ⟨_, exec_drw_of_inside h x y, exec_drw_of_inside (s := s.setSt b) h x y⟩
  · have hpos : 0 < n.toNat := by omega
    have hout : 0x1000 < s.i.toNat + n.toNat := by omega
    exact ⟨_, exec_drw_of_outside hpos hout x y, exec_drw_of_outside (s := s.setSt b) hpos hout x y⟩

theorem carriesSt_skp (x : RegNum) : CarriesSt (.skp x) := by
  intro s b
  rcases Nat.lt_or_ge (s.readV x).toNat 16 with h | h
  · exact ⟨_, exec_skp_of_key (k := ⟨_, h⟩) rfl, exec_skp_of_key (s := s.setSt b) (k := ⟨_, h⟩) rfl⟩
  · exact ⟨_, exec_skp_of_no_key h, exec_skp_of_no_key (s := s.setSt b) h⟩

theorem carriesSt_sknp (x : RegNum) : CarriesSt (.sknp x) := by
  intro s b
  rcases Nat.lt_or_ge (s.readV x).toNat 16 with h | h
  · exact ⟨_, exec_sknp_of_key (k := ⟨_, h⟩) rfl, exec_sknp_of_key (s := s.setSt b) (k := ⟨_, h⟩) rfl⟩
  · exact ⟨_, exec_sknp_of_no_key h, exec_sknp_of_no_key (s := s.setSt b) h⟩

theorem carriesSt_ldVxK (x : RegNum) : CarriesSt (.ldVxK x) := by
  intro s b
  cases hp : s.pressed with
  | nil => exact ⟨_, exec_ldVxK_of_nil hp x, exec_ldVxK_of_nil (s := s.setSt b) hp x⟩
  | cons k ks => exact ⟨_, exec_ldVxK_of_cons hp x, exec_ldVxK_of_cons (s := s.setSt b) hp x⟩

/-- Every instruction but Fx18, which overwrites ST, carries the difference along (R23). -/
theorem carriesSt_of_ne_ldStVx {i : Instr} (hi : ∀ x, i ≠ .ldStVx x) : CarriesSt i := by
  cases i with
  | ldStVx x => exact absurd rfl (hi x)
  | ret => exact carriesSt_ret
  | call nnn => exact carriesSt_call nnn
  | jpV0 nnn => exact carriesSt_jpV0 nnn
  | addI x => exact carriesSt_addI x
  | ldB x => exact carriesSt_ldB x
  | ldMemVx x => exact carriesSt_ldMemVx x
  | ldVxMem x => exact carriesSt_ldVxMem x
  | drw x y n => exact carriesSt_drw x y n
  | skp x => exact carriesSt_skp x
  | sknp x => exact carriesSt_sknp x
  | ldVxK x => exact carriesSt_ldVxK x
  | seImm x kk => exact fun s b => ⟨_, exec_seImm x kk s, exec_seImm x kk (s.setSt b)⟩
  | sneImm x kk => exact fun s b => ⟨_, exec_sneImm x kk s, exec_sneImm x kk (s.setSt b)⟩
  | seReg x y => exact fun s b => ⟨_, exec_seReg x y s, exec_seReg x y (s.setSt b)⟩
  | sneReg x y => exact fun s b => ⟨_, exec_sneReg x y s, exec_sneReg x y (s.setSt b)⟩
  | cls => exact fun s b => ⟨_, exec_cls s, rfl⟩
  | sys nnn | jp nnn | ldI nnn => exact fun s b => ⟨_, rfl, rfl⟩
  | ldImm x kk | addImm x kk | rnd x kk => exact fun s b => ⟨_, rfl, rfl⟩
  | ldReg x y | orReg x y | andReg x y | xorReg x y | addReg x y | sub x y | shr x y | subn x y | shl x y =>
    exact fun s b => ⟨_, rfl, rfl⟩
  | ldVxDt x | ldDtVx x | ldF x => exact fun s b => ⟨_, rfl, rfl⟩

theorem unchangedBut_setSt (s : State) (b : Byte) : UnchangedBut [.st] s (s.setSt b) :=
  UnchangedBut.of_fields (.inr rfl) (.inr rfl) (.inr rfl) (.inr rfl) (.inr rfl) (.inr rfl) (.inl (by decide)) (.inr rfl)
    (.inr rfl) (.inr rfl) (.inr rfl)

/-- What an instruction does from two states that differ in ST alone (R23). -/
theorem exec_setSt {i : Instr} {s t : State} (h : exec i s = .next t) (b : Byte) :
    ∃ u, exec i (s.setSt b) = .next u ∧ UnchangedBut [.st] t u := by
  by_cases hi : ∃ x, i = .ldStVx x
  · obtain ⟨x, rfl⟩ := hi
    obtain rfl := Host.Outcome.next.inj ((exec_ldStVx x s).symm.trans h)
    exact ⟨_, exec_ldStVx x (s.setSt b), UnchangedBut.refl _ _⟩
  · obtain ⟨u, hu, hub⟩ := carriesSt_of_ne_ldStVx (not_exists.mp hi) s b
    obtain rfl := Host.Outcome.next.inj (hu.symm.trans h)
    exact ⟨_, hub, unchangedBut_setSt u b⟩

/-! ### The obligation -/

/-- Settles O17: the fetch does not see ST, and the instruction carries the difference along or overwrites it. -/
theorem noInstructionReadsSoundTimer : Obligations.NoInstructionReadsSoundTimer := by
  intro s t b hstep
  rcases step_cases s with ⟨r, -, h⟩ | ⟨hf, hpc, h⟩ | ⟨hs, hd, h⟩ | ⟨i, hrun, h⟩
  · cases h.symm.trans hstep
  · cases h.symm.trans hstep
    exact ⟨_, step_of_fetch_outside (s := s.setSt b) hf hpc, unchangedBut_setSt (s.raise _ _) b⟩
  · cases h.symm.trans hstep
    exact ⟨_, step_of_illegal (s := s.setSt b) hs hd, unchangedBut_setSt (s.raise _ _) b⟩
  · obtain ⟨u, hu, hsame⟩ := exec_setSt (h.symm.trans hstep) b
    exact ⟨u, (step_of_aboutToRun (s := s.setSt b) hrun).trans hu, hsame⟩

end Sys2Proof.Machine
end
